-- ==== Sys2Proof/Word.lean ====
section
/-! DEFINITION. The data types every layer shares: memory words, register numbers, 8-bit immediates, bit strings. -/

namespace Sys2Proof

/-- A 16-bit word, `W[15]` its most significant bit (00_scope.md R13, 10_state.md R36). -/
abbrev Word := BitVec 16

/-- The number of a general register, 0 to 15; every 4-bit field names one (10_state.md R20). -/
abbrev Reg := Fin 16

/-- An 8-bit immediate field, read as signed or as unsigned by the instruction (30_encoding.md R70). -/
abbrev Imm8 := BitVec 8

/-- A bit string of the CODEC, most significant bit first, `true` for 1 (30_encoding.md R63). -/
abbrev BitString := List Bool

end Sys2Proof
end

