-- ==== Sys2Proof/Config.lean ====
section
/-! DEFINITION. What the opcode table and the loader are made of, and the one value the spec leaves free (DATA_INIT). -/

namespace Sys2Proof

/-- The 24 mnemonics and the pseudo-opcode `data` (00_scope.md R2, 30_encoding.md R80 to R104), in table order. -/
inductive Mnemonic where
  | halt | read | write | jumpi | loadn | load | store | loadi | storei | addn | nop | mov | add
  | neg | sub | mul | div | mod | jump | call | jeqz | jnez | jgtz | jltz | data
  deriving DecidableEq, Repr

/-- The field kinds of an argument shape (30_encoding.md R70). -/
inductive ArgKind where
  /-- 4 bits, a register index -/
  | r
  /-- 4 bits consumed and discarded -/
  | z
  /-- 8 bits, a signed immediate -/
  | s
  /-- 8 bits, an unsigned immediate -/
  | u
  /-- 16 bits, the whole word (a raw data word) -/
  | n
  deriving DecidableEq, Repr

/-- One entry of the opcode table: (match, mask, mnemonic) (00_scope.md R3). -/
structure OpcodeRow where
  value : Word
  mask : Word
  mnemonic : Mnemonic
  deriving DecidableEq, Repr

/-- One decoded field, as the DECODER takes it from the word (30_encoding.md R77). -/
inductive Field where
  | reg (r : Reg)
  | simm (n : Imm8)
  | uimm (n : Imm8)
  | raw (w : Word)
  deriving DecidableEq, Repr

/-- What the DECODER can be given: text that may or may not spell a word, or a raw integer (30_encoding.md R79). -/
inductive DecoderInput where
  | text (chars : List Char)
  | integer (v : Int)
  deriving DecidableEq, Repr

/-- Why the DECODER gives no instruction (30_encoding.md R79). -/
inductive DecodeError where
  /-- The input matches no entry or is not a 16-bit word; the explicit result `Undecodable`. -/
  | undecodable
  deriving DecidableEq, Repr

/-- Why the CODEC refuses an input (30_encoding.md R68, U4). -/
inductive CodecError where
  /-- The width is below 1 or the value lies outside -2^w < v < 2^w. -/
  | outOfDomain
  deriving DecidableEq, Repr

/-- Why a program image is rejected before any instruction runs (70_reset_and_hazards.md R189, R190). -/
inductive LoadError where
  /-- No image was given, or it could not be read (R190). -/
  | noImage
  /-- A line before the image's end holds a character other than 0, 1 and space. -/
  | badCharacter
  /-- A word line does not hold exactly 16 bits once its spaces are removed. -/
  | notSixteenBits
  /-- There is no word line before the first blank line. -/
  | noWords
  /-- There are more than 256 word lines. -/
  | tooManyWords
  deriving DecidableEq, Repr

/-- The values the parameter DIV_OVF_POLICY may take (44_arithmetic.md R158). -/
inductive DivOvfPolicy where
  /-- raise `ArithmeticOverflow` and write nothing -/
  | fault
  /-- write -32768 -/
  | wrap
  /-- write 32768, outside the register range -/
  | unbounded
  deriving DecidableEq, Repr

/-- DATA_INIT: what a data word reads as before any store of the run (20_memory.md R62, D7). A free value: it has no
body, so whatever is proved holds for every initial contents. Log entry 3. -/
opaque Config.dataInit : Nat → Word

end Sys2Proof
end

