-- ==== Sys2Proof/Syntax.lean ====
section
/-! DEFINITION. The instructions, one constructor per row of spec/opcode_table.json, in the table's order. -/

namespace Sys2Proof

/-- The 24 instructions and `data` (30_encoding.md R80 to R104). Operands in the order of the argument shape:
`x` is `W[11:8]`, `y` is `W[7:4]`, `z` is `W[3:0]`, `n` is `W[7:0]` (for `data`, the whole word) (R73, R74). -/
inductive Instr where
  | halt
  | read (x : Reg)
  | write (x : Reg)
  | jumpi (x : Reg)
  | loadn (x : Reg) (n : Imm8)
  | load (x : Reg) (n : Imm8)
  | store (x : Reg) (n : Imm8)
  | loadi (x y : Reg)
  | storei (x y : Reg)
  | addn (x : Reg) (n : Imm8)
  | nop
  | mov (x y : Reg)
  | add (x y z : Reg)
  | neg (x z : Reg)
  | sub (x y z : Reg)
  | mul (x y z : Reg)
  | div (x y z : Reg)
  | mod (x y z : Reg)
  | jump (n : Imm8)
  | call (x : Reg) (n : Imm8)
  | jeqz (x : Reg) (n : Imm8)
  | jnez (x : Reg) (n : Imm8)
  | jgtz (x : Reg) (n : Imm8)
  | jltz (x : Reg) (n : Imm8)
  | data (n : Word)
  deriving DecidableEq, Repr

end Sys2Proof
end

