-- ==== Sys2Proof/WellFormed.lean ====
section
/-! DEFINITION. Which instruction terms stand for a word of their own: those the first-match order of the table does
not give to an earlier entry (30_encoding.md R105, R106). -/

namespace Sys2Proof

/-- The unassigned words, as R106 lists them: `0000 dddd 0000 0000` with dddd not 0; `0000 dddd xxxx xxxx` with
xxxx xxxx at least 4; `0100 dddd ssss xxxx` with xxxx at least 2. -/
def unassigned (w : Word) : Bool :=
  (w.toNat / 4096 == 0 && w.toNat % 256 == 0 && w.toNat / 256 % 16 != 0)
  || (w.toNat / 4096 == 0 && decide (4 ≤ w.toNat % 256))
  || (w.toNat / 4096 == 4 && decide (2 ≤ w.toNat % 16))

/-- The terms whose encoding decodes back to themselves: `mov` not on r0, r0 (that word is `nop`), `add` with Z not r0
(`mov`, `nop`), `sub` with Y not r0 (`neg`), `call` with X not r0 (`jump`), `data` only an unassigned word (R105, R106). -/
def Instr.wellFormed (i : Instr) : Bool :=
  match i with
  | .mov x y => x != 0 || y != 0
  | .add _ _ z => z != 0
  | .sub _ y _ => y != 0
  | .call x _ => x != 0
  | .data n => unassigned n
  | .halt | .read _ | .write _ | .jumpi _ | .loadn _ _ | .load _ _ | .store _ _ | .loadi _ _ | .storei _ _
  | .addn _ _ | .nop | .neg _ _ | .mul _ _ _ | .div _ _ _ | .mod _ _ _ | .jump _ | .jeqz _ _ | .jnez _ _
  | .jgtz _ _ | .jltz _ _ => true

end Sys2Proof
end

