-- ==== Sys2Proof/Decode.lean ====
section
/-! DEFINITION. The DECODER: opcode table and argument shapes (configuration, log entry 2), first-match lookup, field
extraction, the human-readable form; and after it the encoder, from the same table. -/

namespace Sys2Proof

/-- OPCODE_TABLE: the 25 entries in table order (30_encoding.md R80 to R104). PRESUMED by the spec itself: general
knowledge of HMMM, not in its source (D1, K1; log entry 2). -/
def opcodeTable : List OpcodeRow :=
  [ ⟨0x0000, 0xFFFF, .halt⟩, ⟨0x0001, 0xF0FF, .read⟩, ⟨0x0002, 0xF0FF, .write⟩, ⟨0x0003, 0xF0FF, .jumpi⟩,
    ⟨0x1000, 0xF000, .loadn⟩, ⟨0x2000, 0xF000, .load⟩, ⟨0x3000, 0xF000, .store⟩, ⟨0x4000, 0xF00F, .loadi⟩,
    ⟨0x4001, 0xF00F, .storei⟩, ⟨0x5000, 0xF000, .addn⟩, ⟨0x6000, 0xFFFF, .nop⟩, ⟨0x6000, 0xF00F, .mov⟩,
    ⟨0x6000, 0xF000, .add⟩, ⟨0x7000, 0xF0F0, .neg⟩, ⟨0x7000, 0xF000, .sub⟩, ⟨0x8000, 0xF000, .mul⟩,
    ⟨0x9000, 0xF000, .div⟩, ⟨0xA000, 0xF000, .mod⟩, ⟨0xB000, 0xFF00, .jump⟩, ⟨0xB000, 0xF000, .call⟩,
    ⟨0xC000, 0xF000, .jeqz⟩, ⟨0xD000, 0xF000, .jnez⟩, ⟨0xE000, 0xF000, .jgtz⟩, ⟨0xF000, 0xF000, .jltz⟩,
    ⟨0x0000, 0x0000, .data⟩ ]

/-- ARG_SHAPES: the argument shape of each mnemonic (30_encoding.md R73, R80 to R104; D2, log entry 2). -/
def argShape (m : Mnemonic) : List ArgKind :=
  match m with
  | .halt | .nop => []
  | .read | .write | .jumpi => [.r]
  | .loadn | .addn => [.r, .s]
  | .load | .store | .call | .jeqz | .jnez | .jgtz | .jltz => [.r, .u]
  | .loadi | .storei | .mov => [.r, .r]
  | .add | .sub | .mul | .div | .mod => [.r, .r, .r]
  | .neg => [.r, .z, .r]
  | .jump => [.z, .u]
  | .data => [.n]

/-- A word matches an entry when `W & mask == match` (30_encoding.md R76). -/
def OpcodeRow.hits (e : OpcodeRow) (w : Word) : Bool := w &&& e.mask == e.value

/-- The first matching entry in table order wins (30_encoding.md R76). -/
def lookupRow (table : List OpcodeRow) (w : Word) : Option OpcodeRow :=
  match table with
  | [] => none
  | e :: rest => if e.hits w then some e else lookupRow rest w

/-- The nibble `w[lo+3:lo]` as a register number. -/
def regField (w : Word) (lo : Nat) : Reg := ⟨(w.extractLsb' lo 4).toNat, (w.extractLsb' lo 4).isLt⟩

/-- `sext_8`: the signed reading of an 8-bit field (00_scope.md R14, 30_encoding.md R78). -/
def sext8 (n : Imm8) : Int := n.toInt

/-- `zext_8`: the unsigned reading of an 8-bit field (00_scope.md R14). -/
def zext8 (n : Imm8) : Int := n.toNat

/-- `sval`: the signed reading of a 16-bit word (00_scope.md R14). -/
def sval (w : Word) : Int := w.toInt

/-- `int16`: the 16-bit two's-complement pattern of a value in range (00_scope.md R14). -/
def int16 (v : Int) : Word := BitVec.ofInt 16 v

/-- Consume the fields of a shape from the left end of the working word, which is shifted left by the width of each
(30_encoding.md R77). -/
def takeFields (shape : List ArgKind) (work : Word) : List Field :=
  match shape with
  | [] => []
  | .r :: rest => .reg (regField work 12) :: takeFields rest (work <<< 4)
  | .z :: rest => takeFields rest (work <<< 4)
  | .s :: rest => .simm (work.extractLsb' 8 8) :: takeFields rest (work <<< 8)
  | .u :: rest => .uimm (work.extractLsb' 8 8) :: takeFields rest (work <<< 8)
  | .n :: rest => .raw work :: takeFields rest 0

/-- `Extract`: the shape `n` takes all 16 bits, every other shape starts after the opcode nibble (30_encoding.md R72,
R77; 90_conflicts.md C4). -/
def extractFields (m : Mnemonic) (w : Word) : List Field :=
  if argShape m = [.n] then takeFields (argShape m) w else takeFields (argShape m) (w <<< 4)

/-- The instruction of a mnemonic and its extracted fields; none where they do not fit the mnemonic's shape. -/
def buildInstr (m : Mnemonic) (fields : List Field) : Option Instr :=
  match m, fields with
  | .halt, [] => some .halt
  | .read, [.reg x] => some (.read x)
  | .write, [.reg x] => some (.write x)
  | .jumpi, [.reg x] => some (.jumpi x)
  | .loadn, [.reg x, .simm n] => some (.loadn x n)
  | .load, [.reg x, .uimm n] => some (.load x n)
  | .store, [.reg x, .uimm n] => some (.store x n)
  | .loadi, [.reg x, .reg y] => some (.loadi x y)
  | .storei, [.reg x, .reg y] => some (.storei x y)
  | .addn, [.reg x, .simm n] => some (.addn x n)
  | .nop, [] => some .nop
  | .mov, [.reg x, .reg y] => some (.mov x y)
  | .add, [.reg x, .reg y, .reg z] => some (.add x y z)
  | .neg, [.reg x, .reg z] => some (.neg x z)
  | .sub, [.reg x, .reg y, .reg z] => some (.sub x y z)
  | .mul, [.reg x, .reg y, .reg z] => some (.mul x y z)
  | .div, [.reg x, .reg y, .reg z] => some (.div x y z)
  | .mod, [.reg x, .reg y, .reg z] => some (.mod x y z)
  | .jump, [.uimm n] => some (.jump n)
  | .call, [.reg x, .uimm n] => some (.call x n)
  | .jeqz, [.reg x, .uimm n] => some (.jeqz x n)
  | .jnez, [.reg x, .uimm n] => some (.jnez x n)
  | .jgtz, [.reg x, .uimm n] => some (.jgtz x n)
  | .jltz, [.reg x, .uimm n] => some (.jltz x n)
  | .data, [.raw w] => some (.data w)
  | _, _ => none

/-- The DECODER on a 16-bit word, for any table: the first matching entry, then its fields; none is `Undecodable`
(30_encoding.md R75 to R79). -/
def decodeWith (table : List OpcodeRow) (w : Word) : Option Instr :=
  match lookupRow table w with
  | none => none
  | some e => buildInstr e.mnemonic (extractFields e.mnemonic w)

/-- The DECODER with the machine's table, whose wildcard entry leaves no word undecodable (30_encoding.md R79). -/
def decodeWord (w : Word) : Option Instr := decodeWith opcodeTable w

/-- The bit a character of a word's text stands for. -/
def bitOfChar (c : Char) : Option Bool :=
  if c = '0' then some false else if c = '1' then some true else none

/-- The bits of a text; none when a character is neither 0 nor 1. -/
def bitsOfText (cs : List Char) : Option BitString :=
  match cs with
  | [] => some []
  | c :: rest =>
    match bitOfChar c, bitsOfText rest with
    | some b, some bs => some (b :: bs)
    | _, _ => none

/-- The unsigned value of a bit string, most significant bit first; the empty string is 0 (30_encoding.md R67). -/
def bitStringToInt (b : BitString) : Nat :=
  match b with
  | [] => 0
  | c :: rest => c.toNat * 2 ^ rest.length + bitStringToInt rest

/-- The word a text spells: exactly 16 characters, each 0 or 1, the first being `W[15]` (00_scope.md R13). -/
def wordOfText (cs : List Char) : Option Word :=
  match bitsOfText cs with
  | none => none
  | some bs => if bs.length = 16 then some (BitVec.ofNat 16 (bitStringToInt bs)) else none

/-- The DECODER on any input: malformed text or a raw integer gives the explicit result `Undecodable` (30_encoding.md
R79, U5). -/
def decode (input : DecoderInput) : Except DecodeError Instr :=
  match input with
  | .integer _ => .error .undecodable
  | .text cs =>
    match wordOfText cs with
    | none => .error .undecodable
    | some w =>
      match decodeWord w with
      | none => .error .undecodable
      | some i => .ok i

/-- The instruction the decoder reads from an instruction of `nbits` bits with value `w`. Every instruction is one
16-bit word (30_encoding.md R71): more bits are no instruction, and a shorter row is filled up with zeros. -/
def decodeTableWord (nbits w : Nat) : Option Instr :=
  if nbits ≤ 16 then decodeWord (BitVec.ofNat 16 (w % 2 ^ nbits)) else none

/-- The mnemonic of an instruction. -/
def Instr.mnemonic (i : Instr) : Mnemonic :=
  match i with
  | .halt => .halt
  | .read _ => .read
  | .write _ => .write
  | .jumpi _ => .jumpi
  | .loadn _ _ => .loadn
  | .load _ _ => .load
  | .store _ _ => .store
  | .loadi _ _ => .loadi
  | .storei _ _ => .storei
  | .addn _ _ => .addn
  | .nop => .nop
  | .mov _ _ => .mov
  | .add _ _ _ => .add
  | .neg _ _ => .neg
  | .sub _ _ _ => .sub
  | .mul _ _ _ => .mul
  | .div _ _ _ => .div
  | .mod _ _ _ => .mod
  | .jump _ => .jump
  | .call _ _ => .call
  | .jeqz _ _ => .jeqz
  | .jnez _ _ => .jnez
  | .jgtz _ _ => .jgtz
  | .jltz _ _ => .jltz
  | .data _ => .data

/-- The fields of an instruction, in the order its shape gives them. -/
def Instr.fields (i : Instr) : List Field :=
  match i with
  | .halt | .nop => []
  | .read x | .write x | .jumpi x => [.reg x]
  | .loadn x n | .addn x n => [.reg x, .simm n]
  | .load x n | .store x n | .call x n | .jeqz x n | .jnez x n | .jgtz x n | .jltz x n => [.reg x, .uimm n]
  | .loadi x y | .storei x y | .mov x y => [.reg x, .reg y]
  | .add x y z | .sub x y z | .mul x y z | .div x y z | .mod x y z => [.reg x, .reg y, .reg z]
  | .neg x z => [.reg x, .reg z]
  | .jump n => [.uimm n]
  | .data w => [.raw w]

/-- The value of a field as an argument (30_encoding.md R70). -/
def Field.value (f : Field) : Int :=
  match f with
  | .reg r => r.val
  | .simm n => sext8 n
  | .uimm n => zext8 n
  | .raw w => w.toNat

/-- The decoded argument list (30_encoding.md R75, R77). -/
def Instr.args (i : Instr) : List Int := i.fields.map Field.value

/-- The mnemonic as it is written. -/
def Mnemonic.name (m : Mnemonic) : String :=
  match m with
  | .halt => "halt" | .read => "read" | .write => "write" | .jumpi => "jumpi" | .loadn => "loadn" | .load => "load"
  | .store => "store" | .loadi => "loadi" | .storei => "storei" | .addn => "addn" | .nop => "nop" | .mov => "mov"
  | .add => "add" | .neg => "neg" | .sub => "sub" | .mul => "mul" | .div => "div" | .mod => "mod" | .jump => "jump"
  | .call => "call" | .jeqz => "jeqz" | .jnez => "jnez" | .jgtz => "jgtz" | .jltz => "jltz" | .data => "data"

/-- A field as text: a register as `r` and its number, an immediate in decimal (30_encoding.md R107). -/
def Field.text (f : Field) : String :=
  match f with
  | .reg r => "r" ++ toString r.val
  | .simm n => toString (sext8 n)
  | .uimm n => toString n.toNat
  | .raw w => toString w.toNat

/-- Fields separated by a comma and a space. -/
def fieldsText (fields : List Field) : String :=
  match fields with
  | [] => ""
  | [f] => f.text
  | f :: rest => f.text ++ ", " ++ fieldsText rest

/-- `Text`: the human-readable form (30_encoding.md R107). -/
def Instr.text (i : Instr) : String :=
  match i.fields with
  | [] => i.mnemonic.name
  | fields => i.mnemonic.name ++ " " ++ fieldsText fields

/-- The fixed bits of a mnemonic's entry: its match value (30_encoding.md R80 to R104). -/
def opcodeBits (m : Mnemonic) : Word :=
  match opcodeTable.find? (fun e => e.mnemonic == m) with
  | none => 0
  | some e => e.value

/-- Place the fields of a shape in the working word from its left end: the converse of `takeFields`. -/
def putFields (shape : List ArgKind) (fields : List Field) : Word :=
  match shape, fields with
  | .r :: rest, .reg r :: fs => (BitVec.ofNat 16 r.val <<< 12) ||| (putFields rest fs >>> 4)
  | .z :: rest, fs => putFields rest fs >>> 4
  | .s :: rest, .simm n :: fs => (n.setWidth 16 <<< 8) ||| (putFields rest fs >>> 8)
  | .u :: rest, .uimm n :: fs => (n.setWidth 16 <<< 8) ||| (putFields rest fs >>> 8)
  | .n :: _, .raw w :: _ => w
  | _, _ => 0

/-- The word of an instruction: its entry's fixed bits and its fields where its shape puts them (30_encoding.md R72,
R73). -/
def encode (i : Instr) : Word :=
  if argShape i.mnemonic = [.n] then putFields [.n] i.fields
  else opcodeBits i.mnemonic ||| (putFields (argShape i.mnemonic) i.fields >>> 4)

end Sys2Proof
end

