-- ==== Sys2Proof/Machine/State.lean ====
section
/-! DEFINITION. The machine's state as plain data (10_state.md R43), the reasons a step can stop, and the state after
reset. -/

namespace Sys2Proof.Machine

/-- The program counter: an index, or the halt sentinel (10_state.md R26, D4; log entry 15). -/
inductive Pc where
  | addr (n : Nat)
  | halt
  deriving DecidableEq, Repr

/-- The run state, the spec's `state` (10_state.md R30). -/
inductive RunState where
  | loaded | running | halted | failed | aborted
  deriving DecidableEq, Repr

/-- The failure causes (60_exceptions.md R167). -/
inductive FailCause where
  | pcOutOfBounds
  | invalidOpcode
  | loadOutOfBounds
  | storeOutOfBounds
  | jumpOutOfBounds
  | arithmeticOverflow
  | divideByZero
  deriving DecidableEq, Repr

/-- The diagnostic record of a failure (10_state.md R33, 60_exceptions.md R168); fields that do not apply are empty. -/
structure FaultRecord where
  cause : FailCause
  pc : Pc
  lpc : Option Nat
  ir : Option Word
  mnemonic : Option Mnemonic
  args : List Int
  target : Option Int
  deriving DecidableEq, Repr

/-- One answer of the host to `read`: a value, or `Abort` (a quit request, an end of input or an interrupt)
(41_system_io.md R127). -/
inductive HostAnswer where
  | value (v : Int)
  | abort
  deriving DecidableEq, Repr

/-- One listed memory word: its address and its 16 bits. The spec's smallest addressable unit is the word
(20_memory.md R45, R51; log entry 4). -/
abbrev WordCell := Nat × Word

/-- The memory words that the load or a store of the run has written, addresses strictly rising. A word not listed has
not been written; what it reads as is `Config.dataInit` (20_memory.md R62; log entry 3). -/
abbrev Memory := List WordCell

/-- The state of the machine (10_state.md R43). `input` and `abortIn` are the model's own: they stand for the host,
a parameter of the step by R44 (log entries 5 and 6). -/
structure State where
  /-- x[0] .. x[15], signed integers in [-32768, 32767] (R20) -/
  regs : Vector Int 16
  /-- the program counter (R26) -/
  pc : Pc
  /-- the code-size boundary (R27) -/
  codeSize : Nat
  /-- the last program counter, or unset (R28, R43) -/
  lpc : Option Nat
  /-- the instruction register, or unset (R29, R43) -/
  ir : Option Word
  /-- the run state (R30) -/
  run : RunState
  /-- a `read` is blocked on the host (R31) -/
  waiting : Bool
  /-- the diagnostic record, empty until the run fails (R33) -/
  fault : Option FaultRecord
  /-- the memory words written so far (R36) -/
  mem : Memory
  /-- the values emitted so far (R38) -/
  out : List Int
  /-- the host's answers not taken yet, oldest first (R127) -/
  input : List HostAnswer
  /-- after how many more steps the host's abort takes effect, sooner where a blocked `read` leaves no other step
  possible (R174, R176) -/
  abortIn : Option Nat
  deriving DecidableEq, Repr

/-- Why no step is possible. A failure of the program is no `Fault`: it is taken as the spec describes, in a next state
whose `run` is `failed` (log entry 9). All five are safe: the machine stops where the spec says that no step happens or
where no run can be. -/
inductive Fault where
  /-- `step` in `Halted`: terminal, no step leaves it (10_state.md R30, 40_cycle.md R110). Safe. -/
  | runHalted
  /-- `step` in `Failed`: terminal, no step leaves it (10_state.md R30, 40_cycle.md R110). Safe. -/
  | runFailed
  /-- `step` in `Aborted`: terminal, no step leaves it (10_state.md R30, 40_cycle.md R110). Safe. -/
  | runAborted
  /-- `step` while a `read` is blocked, with no answer of the host there and no abort of it to come: no step is possible
  and none is invented (40_cycle.md R110, 41_system_io.md R127, 70_reset_and_hazards.md R199,
  93_implementation_defined.md U9; log entry 16). The host's answer or abort frees the state. Safe. -/
  | awaitingHost
  /-- `step` in a waiting state whose IR holds no `read`: only `read` sets `waiting` (41_system_io.md R127), so no run
  reaches it (log entry 17). Safe. -/
  | waitingWithoutRead
  deriving DecidableEq, Repr

/-- Why an instruction is refused. Every instruction of the table has its meaning, so no step answers this. -/
inductive Refusal where
  /-- `exec`, for an instruction that has no meaning yet. Safe: nothing can be proved of it. -/
  | notModelled (mnemonic : String)
  deriving DecidableEq, Repr

/-- What a meaning and a step answer. -/
abbrev Result := Host.Outcome State Fault Refusal

/-- The machine before any image is placed: every field at the value of the load (10_state.md R41, 70 R186, R191),
`codeSize` 0 for want of an image (DESIGN CHOICE, log entry 7), the host silent (log entries 5 and 6). -/
def State.reset : State where
  regs := Vector.replicate 16 0
  pc := .addr 0
  codeSize := 0
  lpc := none
  ir := none
  run := .loaded
  waiting := false
  fault := none
  mem := []
  out := []
  input := []
  abortIn := none

end Sys2Proof.Machine
end

