-- ==== Sys2Proof/Machine/Ops.lean ====
section
/-! DEFINITION. The named operations on memory, registers, the pc, the output and the host, and the one operation by
which every failure is taken (60_exceptions.md R168, R172). The machine has no return from a failure (R178). -/

namespace Sys2Proof.Machine

/-- The listed word at an address; none when nothing has written it. -/
def lookupCell (m : Memory) (a : Nat) : Option Word :=
  match m with
  | [] => none
  | c :: rest => if c.1 = a then some c.2 else lookupCell rest a

/-- List a word at an address, keeping the addresses strictly rising. -/
def insertCell (m : Memory) (a : Nat) (w : Word) : Memory :=
  match m with
  | [] => [(a, w)]
  | c :: rest =>
    if a < c.1 then (a, w) :: c :: rest
    else if c.1 = a then (a, w) :: rest
    else c :: insertCell rest a w

/-- Addresses strictly rise from above `lo`, and all are below 256. -/
def Memory.risesFrom (lo : Nat) (m : Memory) : Bool :=
  match m with
  | [] => true
  | c :: rest => decide (lo ≤ c.1) && decide (c.1 < 256) && Memory.risesFrom (c.1 + 1) rest

/-- The canonical form: addresses strictly rising, all inside the 256 words (20_memory.md R45). No listed entry can
equal what an unlisted address holds, since that is no value at all (log entry 3). -/
def Memory.wf (m : Memory) : Bool := Memory.risesFrom 0 m

/-- The 16 bits at an address: the latest write, or DATA_INIT (20_memory.md R56, R62). -/
def State.wordAt (s : State) (a : Nat) : Word :=
  match lookupCell s.mem a with
  | some w => w
  | none => Config.dataInit a

/-- `MemRead(a)`: the word at `a` as a signed value (00_scope.md R15, 10_state.md R36). -/
def State.memRead (s : State) (a : Nat) : Int := sval (s.wordAt a)

/-- `MemWrite(a, v)`: `int16` of the value at `a` (00_scope.md R15, 10_state.md R36). -/
def State.memWrite (s : State) (a : Nat) (v : Int) : State := { s with mem := insertCell s.mem a (int16 v) }

/-- `x[i]`: register 0 always reads 0 (10_state.md R22; log entry 13). -/
def State.reg (s : State) (r : Reg) : Int := if r = 0 then 0 else s.regs[r.val]

/-- `x[i] <- v`: a write to register 0 has no lasting effect (10_state.md R22; log entry 13). -/
def State.setReg (s : State) (r : Reg) (v : Int) : State :=
  if r = 0 then s else { s with regs := s.regs.set r.val v }

/-- `x[0] <- 0`, done before and after every dispatch (40_cycle.md R115, R117). -/
def State.forceR0 (s : State) : State := { s with regs := s.regs.set 0 0 }

/-- `pc <- t` for an index `t` (00_scope.md R15). -/
def State.setPc (s : State) (t : Nat) : State := { s with pc := .addr t }

/-- `pc <- HALT; state <- Halted` (41_system_io.md R125). -/
def State.stop (s : State) : State := { s with pc := .halt, run := .halted }

/-- The run state becomes `Running` at the start of a cycle (40_cycle.md R110, R117). -/
def State.begin (s : State) : State := { s with run := .running }

/-- The pc as a number, for `call`'s return address; HALT, which no dispatched instruction sees, counts as 0. -/
def State.pcIndex (s : State) : Nat :=
  match s.pc with
  | .addr n => n
  | .halt => 0

/-- `HostWrite(v); out <- out ++ [v]` (41_system_io.md R128). -/
def State.emit (s : State) (v : Int) : State := { s with out := s.out ++ [v] }

/-- The number of a cause (60_exceptions.md R167, D5). -/
def FailCause.code (c : FailCause) : Nat :=
  match c with
  | .pcOutOfBounds => 1
  | .invalidOpcode => 2
  | .loadOutOfBounds => 3
  | .storeOutOfBounds => 4
  | .jumpOutOfBounds => 5
  | .arithmeticOverflow => 6
  | .divideByZero => 7

/-- The cause number of a state; 0 means no fault (60_exceptions.md R167). -/
def State.faultCode (s : State) : Nat :=
  match s.fault with
  | none => 0
  | some f => f.cause.code

/-- `raise Fail(cause, target)`: the run ends in `Failed` with the diagnostic record, and nothing else is written
(00_scope.md R15, 10_state.md R33, 60_exceptions.md R168, R172). `who` is the instruction whose mnemonic and arguments
the record holds (log entry 12). -/
def State.fail (s : State) (cause : FailCause) (who : Option Instr) (target : Option Int) : State :=
  { s with
    run := .failed
    fault := some
      { cause := cause
        pc := s.pc
        lpc := s.lpc
        ir := s.ir
        mnemonic := who.map Instr.mnemonic
        args := (who.map Instr.args).getD []
        target := target } }

/-- The instruction that IR holds: what the DECODER reads from it; none while IR is unset. -/
def State.irInstr (s : State) : Option Instr :=
  match s.ir with
  | none => none
  | some w => decodeWord w

/-- The host's abort takes effect: the run ends in `Aborted`, no register, memory word or output is written, and a
blocked `read` is over (60_exceptions.md R176, 41_system_io.md R126). -/
def State.hostAborts (s : State) : State := { s with run := .aborted, waiting := false }

/-- The first answer the core takes, and the answers left. A value outside [-32768, 32767] is an input error: the host
asks again, so it is passed over (41_system_io.md R126, 60_exceptions.md R171; log entry 5). -/
def takeAnswer (input : List HostAnswer) : Option (HostAnswer × List HostAnswer) :=
  match input with
  | [] => none
  | .abort :: rest => some (.abort, rest)
  | .value v :: rest => if -32768 ≤ v ∧ v ≤ 32767 then some (.value v, rest) else takeAnswer rest

/-- `read` blocks: `waiting` is set, every answer offered so far having been turned away (41_system_io.md R126, R127). -/
def State.block (s : State) : State := { s with waiting := true, input := [] }

/-- `read` has its answer: `waiting` is cleared and the answers left remain (41_system_io.md R126). -/
def State.unblock (s : State) (rest : List HostAnswer) : State := { s with waiting := false, input := rest }

/-- The host answered `Abort`: the run ends in `Aborted` and no register is written (41_system_io.md R126). -/
def State.quit (s : State) (rest : List HostAnswer) : State :=
  { s with waiting := false, input := rest, run := .aborted }

/-- The host supplies one more answer to `read` (41_system_io.md R127). -/
def State.hostSupply (s : State) (a : HostAnswer) : State := { s with input := s.input ++ [a] }

/-- The host's abort signal will take effect after `n` more steps, or when a blocked `read` leaves no other step possible
(60_exceptions.md R174, R176). -/
def State.hostAbortAfter (s : State) (n : Nat) : State := { s with abortIn := some n }

/-- The host's abort takes effect now: its time has come, or it is still to come while a blocked `read` has no answer, so
that nothing else can happen before it (60_exceptions.md R174, R176; log entry 6). -/
abbrev State.AbortDue (s : State) : Prop :=
  s.abortIn = some 0 ∨ s.waiting = true ∧ takeAnswer s.input = none ∧ s.abortIn ≠ none

/-- One step nearer to the host's abort (log entry 6). -/
def State.countDown (s : State) : State := { s with abortIn := s.abortIn.map (· - 1) }

/-- One line of output: the signed decimal text of a value and a line end (41_system_io.md R129). -/
def outputLine (v : Int) : String := toString v ++ "\n"

/-- The output of a run so far, one integer a line (41_system_io.md R129). -/
def State.outputText (s : State) : String := s.out.foldl (fun text v => text ++ outputLine v) ""

end Sys2Proof.Machine
end

