-- ==== Sys2Proof/Machine/Flags.lean ====
section
/-! DEFINITION. The machine has no status flags (10_state.md R32). Here stand the tests made in their place: the range
test of arithmetic, the division corner, and the conditions of the conditional jumps. -/

namespace Sys2Proof.Machine

/-- `InRange(v)`: VAL_MIN <= v <= VAL_MAX (00_scope.md R15). -/
abbrev InRange (v : Int) : Prop := -32768 ≤ v ∧ v ≤ 32767

/-- DIV_OVF_POLICY, the outcome of -32768 div -1: the spec's own choice is `Fault` (44_arithmetic.md R158, D9;
log entry 10). -/
def divOvfPolicy : DivOvfPolicy := .fault

/-- `OvfCheck(r)` and then `x[X] <- r`: a result out of range fails and is not written, whatever the destination
(44_arithmetic.md R147, R148). -/
def writeChecked (i : Instr) (x : Reg) (r : Int) (s : State) : Result :=
  if InRange r then .next (s.setReg x r) else .next (s.fail .arithmeticOverflow (some i) (some r))

/-- `DivOvf(q)` and then `x[X] <- q`, for each value of the policy (44_arithmetic.md R156, R158). -/
def writeQuotient (policy : DivOvfPolicy) (i : Instr) (x : Reg) (q : Int) (s : State) : Result :=
  if q = 32768 then
    match policy with
    | .fault => .next (s.fail .arithmeticOverflow (some i) (some q))
    | .wrap => .next (s.setReg x (-32768))
    | .unbounded => .next (s.setReg x q)
  else .next (s.setReg x q)

/-- `b = 0` raises DivideByZero, with no target (44_arithmetic.md R156, R157; 60_exceptions.md R168). -/
def failDivideByZero (i : Instr) (s : State) : Result := .next (s.fail .divideByZero (some i) none)

/-- The conditions of the conditional jumps, on a signed value (42_control_transfer.md R134 to R138). -/
inductive Condition where
  | eqZero | neZero | gtZero | ltZero
  deriving DecidableEq, Repr

/-- Whether a condition holds of a register value (42_control_transfer.md R135 to R138). -/
def Condition.holds (c : Condition) (v : Int) : Bool :=
  match c with
  | .eqZero => decide (v = 0)
  | .neZero => decide (v ≠ 0)
  | .gtZero => decide (0 < v)
  | .ltZero => decide (v < 0)

end Sys2Proof.Machine
end

