-- ==== Sys2Proof/Machine/Operands.lean ====
section
/-! DEFINITION. The operand forms and their region checks: data addresses (direct and register-indirect) and jump
targets (20_memory.md R47, 42_control_transfer.md R130, 43_load_store.md R145). -/

namespace Sys2Proof.Machine

/-- `InCode(t)`: 0 <= t < codeSize (00_scope.md R15). -/
abbrev State.InCode (s : State) (t : Int) : Prop := 0 ≤ t ∧ t < s.codeSize

/-- `InData(a)`: codeSize <= a < 256, with an address never negative (00_scope.md R15, 20_memory.md R50). -/
abbrev State.InData (s : State) (a : Int) : Prop := (s.codeSize : Int) ≤ a ∧ a < 256

/-- The effective address of the direct form is the immediate itself (43_load_store.md R145). -/
def directAddress (n : Imm8) : Int := zext8 n

/-- The effective address of the indirect form is the full signed register value (20_memory.md R50, 43 R145). -/
def State.indirectAddress (s : State) (y : Reg) : Int := s.reg y

/-- `DataCheck` and then the read into a register, shared by `load` and `loadi` (20_memory.md R47, 43 R141, R143). -/
def loadFrom (i : Instr) (x : Reg) (a : Int) (s : State) : Result :=
  if s.InData a then .next (s.setReg x (s.memRead a.toNat))
  else .next (s.fail .loadOutOfBounds (some i) (some a))

/-- `DataCheck` and then the write of a register, shared by `store` and `storei` (20_memory.md R47, 43 R142, R144). -/
def storeTo (i : Instr) (x : Reg) (a : Int) (s : State) : Result :=
  if s.InData a then .next (s.memWrite a.toNat (s.reg x))
  else .next (s.fail .storeOutOfBounds (some i) (some a))

/-- `JumpCheck(t)` and then `after`; an illegal target fails before anything is written (42_control_transfer.md R130). -/
def checkTarget (i : Instr) (t : Int) (s after : State) : Result :=
  if s.InCode t then .next after else .next (s.fail .jumpOutOfBounds (some i) (some t))

/-- `pc <- t` behind its check, shared by `jumpi` and `jump` (42_control_transfer.md R131, R132). -/
def jumpTo (i : Instr) (t : Int) (s : State) : Result := checkTarget i t s (s.setPc t.toNat)

/-- `Jcc`: the target is checked whether or not the jump is taken (42_control_transfer.md R134). -/
def branchIf (i : Instr) (c : Condition) (x : Reg) (n : Imm8) (s : State) : Result :=
  checkTarget i (zext8 n) s (if c.holds (s.reg x) then s.setPc (zext8 n).toNat else s)

end Sys2Proof.Machine
end

