-- ==== Sys2Proof/Machine/Arithmetic.lean ====
section
/-! DEFINITION. Arithmetic: addn, add, mov, nop, sub, neg, mul, div, mod (44_arithmetic.md). Every result is computed
exactly on integers and then checked (R147, R160). -/

namespace Sys2Proof.Machine

/-- `addn rX, N` (R149). -/
def execAddn (x : Reg) (n : Imm8) (s : State) : Result := writeChecked (.addn x n) x (s.reg x + sext8 n) s

/-- `add rX, rY, rZ` (R150). -/
def execAdd (x y z : Reg) (s : State) : Result := writeChecked (.add x y z) x (s.reg y + s.reg z) s

/-- `mov rX, rY`: the add with an implicit zero operand, checked like it (R147, R151). -/
def execMov (x y : Reg) (s : State) : Result := writeChecked (.mov x y) x (s.reg y + 0) s

/-- `nop`: the add with every operand r0 (R152). -/
def execNop (s : State) : Result := writeChecked .nop 0 (s.reg 0 + s.reg 0) s

/-- `sub rX, rY, rZ` (R153). -/
def execSub (x y z : Reg) (s : State) : Result := writeChecked (.sub x y z) x (s.reg y - s.reg z) s

/-- `neg rX, rZ`: the zero is the minuend (R154). -/
def execNeg (x z : Reg) (s : State) : Result := writeChecked (.neg x z) x (0 - s.reg z) s

/-- `mul rX, rY, rZ` (R155). -/
def execMul (x y z : Reg) (s : State) : Result := writeChecked (.mul x y z) x (s.reg y * s.reg z) s

/-- `div rX, rY, rZ`: the quotient rounds toward minus infinity (R156, R158). -/
def execDiv (x y z : Reg) (s : State) : Result :=
  if s.reg z = 0 then failDivideByZero (.div x y z) s
  else writeQuotient divOvfPolicy (.div x y z) x (Int.fdiv (s.reg y) (s.reg z)) s

/-- `mod rX, rY, rZ`: the remainder that goes with the floor quotient; no overflow check (R157). -/
def execMod (x y z : Reg) (s : State) : Result :=
  if s.reg z = 0 then failDivideByZero (.mod x y z) s
  else .next (s.setReg x (s.reg y - s.reg z * Int.fdiv (s.reg y) (s.reg z)))

end Sys2Proof.Machine
end

