-- ==== Sys2Proof/Machine/Control.lean ====
section
/-! DEFINITION. Control transfer: jumpi, jump, call, jeqz, jnez, jgtz, jltz (42_control_transfer.md). -/

namespace Sys2Proof.Machine

/-- `jumpi rX`: the target is the full signed register value (R131). -/
def execJumpi (x : Reg) (s : State) : Result := jumpTo (.jumpi x) (s.reg x) s

/-- `jump N` (R132). -/
def execJump (n : Imm8) (s : State) : Result := jumpTo (.jump n) (zext8 n) s

/-- `call rX, N`: the return address is the pc of step 2, lpc + 1; a bad target leaves x[X] unwritten (R133). -/
def execCall (x : Reg) (n : Imm8) (s : State) : Result :=
  checkTarget (.call x n) (zext8 n) s ((s.setReg x s.pcIndex).setPc (zext8 n).toNat)

/-- `jeqz rX, N` (R134, R135). -/
def execJeqz (x : Reg) (n : Imm8) (s : State) : Result := branchIf (.jeqz x n) .eqZero x n s

/-- `jnez rX, N` (R134, R136). -/
def execJnez (x : Reg) (n : Imm8) (s : State) : Result := branchIf (.jnez x n) .neZero x n s

/-- `jgtz rX, N` (R134, R137). -/
def execJgtz (x : Reg) (n : Imm8) (s : State) : Result := branchIf (.jgtz x n) .gtZero x n s

/-- `jltz rX, N` (R134, R138). -/
def execJltz (x : Reg) (n : Imm8) (s : State) : Result := branchIf (.jltz x n) .ltZero x n s

end Sys2Proof.Machine
end

