-- ==== Sys2Proof/Machine/Invalid.lean ====
section
/-! DEFINITION. Data words executed, and what no instruction is read from (45_invalid.md). -/

namespace Sys2Proof.Machine

/-- `data N` executed: InvalidOpcode, always, with no target (R161). -/
def execData (w : Word) (s : State) : Result := .next (s.fail .invalidOpcode (some (.data w)) none)

/-- `Undecodable` executed: it fails exactly as `data` does, with no mnemonic to record (R162). -/
def execUndecodable (s : State) : Result := .next (s.fail .invalidOpcode none none)

end Sys2Proof.Machine
end

