-- ==== Sys2Proof/Machine/LoadStore.lean ====
section
/-! DEFINITION. Loads and stores: loadn, load, store, loadi, storei (43_load_store.md). -/

namespace Sys2Proof.Machine

/-- `loadn rX, N` (R140). -/
def execLoadn (x : Reg) (n : Imm8) (s : State) : Result := .next (s.setReg x (sext8 n))

/-- `load rX, N` (R141). -/
def execLoad (x : Reg) (n : Imm8) (s : State) : Result := loadFrom (.load x n) x (directAddress n) s

/-- `store rX, N` (R142). -/
def execStore (x : Reg) (n : Imm8) (s : State) : Result := storeTo (.store x n) x (directAddress n) s

/-- `loadi rX, rY`: the address is read before the register is written (R143). -/
def execLoadi (x y : Reg) (s : State) : Result := loadFrom (.loadi x y) x (s.indirectAddress y) s

/-- `storei rX, rY` (R144). -/
def execStorei (x y : Reg) (s : State) : Result := storeTo (.storei x y) x (s.indirectAddress y) s

end Sys2Proof.Machine
end

