-- ==== Sys2Proof/Machine/System.lean ====
section
/-! DEFINITION. The system and I/O instructions: halt, read, write (41_system_io.md). A meaning runs in step 4 of the
cycle, with pc already at lpc + 1 (40_cycle.md R119). -/

namespace Sys2Proof.Machine

/-- `halt` (R125). -/
def execHalt (s : State) : Result := .next s.stop

/-- `read rX` (R126, R127): takes the host's answer, or blocks with `waiting` set where there is none: that ends the
cycle, and the host goes on with it (log entry 16). -/
def execRead (x : Reg) (s : State) : Result :=
  match takeAnswer s.input with
  | none => .next s.block
  | some (.abort, rest) => .next (s.quit rest)
  | some (.value v, rest) => .next ((s.unblock rest).setReg x v)

/-- `write rX` (R128, R129). -/
def execWrite (x : Reg) (s : State) : Result := .next (s.emit (s.reg x))

end Sys2Proof.Machine
end

