-- ==== Sys2Proof/Machine/Dispatch.lean ====
section
/-! DEFINITION. The dispatch table (40_cycle.md R118): one arm per instruction, in the opcode table's order. -/

namespace Sys2Proof.Machine

def exec (i : Instr) (s : State) : Host.Outcome State Fault Refusal :=
  match i with
  | .halt => Sys2Proof.Machine.execHalt s
  | .read x => Sys2Proof.Machine.execRead x s
  | .write x => Sys2Proof.Machine.execWrite x s
  | .jumpi x => Sys2Proof.Machine.execJumpi x s
  | .loadn x n => Sys2Proof.Machine.execLoadn x n s
  | .load x n => Sys2Proof.Machine.execLoad x n s
  | .store x n => Sys2Proof.Machine.execStore x n s
  | .loadi x y => Sys2Proof.Machine.execLoadi x y s
  | .storei x y => Sys2Proof.Machine.execStorei x y s
  | .addn x n => Sys2Proof.Machine.execAddn x n s
  | .nop => Sys2Proof.Machine.execNop s
  | .mov x y => Sys2Proof.Machine.execMov x y s
  | .add x y z => Sys2Proof.Machine.execAdd x y z s
  | .neg x z => Sys2Proof.Machine.execNeg x z s
  | .sub x y z => Sys2Proof.Machine.execSub x y z s
  | .mul x y z => Sys2Proof.Machine.execMul x y z s
  | .div x y z => Sys2Proof.Machine.execDiv x y z s
  | .mod x y z => Sys2Proof.Machine.execMod x y z s
  | .jump n => Sys2Proof.Machine.execJump n s
  | .call x n => Sys2Proof.Machine.execCall x n s
  | .jeqz x n => Sys2Proof.Machine.execJeqz x n s
  | .jnez x n => Sys2Proof.Machine.execJnez x n s
  | .jgtz x n => Sys2Proof.Machine.execJgtz x n s
  | .jltz x n => Sys2Proof.Machine.execJltz x n s
  | .data n => Sys2Proof.Machine.execData n s

end Sys2Proof.Machine
end

