-- ==== Sys2Proof/Machine/Cycle.lean ====
section
/-! DEFINITION. The fetch-execute cycle (40_cycle.md R110 to R124): pc check, fetch, decode, dispatch, r0; and what
surrounds it: the completion of a blocked `read`, the host's abort, the placing of a word for the next fetch. -/

namespace Sys2Proof.Machine

/-- Step 5 after a dispatch: `x[0] <- 0` (R115). After a failure it changes nothing, as x[0] was forced before. -/
def afterDispatch (r : Result) : Result :=
  match r with
  | .next s => .next s.forceR0
  | .fault f => .fault f
  | .refused f => .refused f

/-- Step 2: `IR <- M[pc]; lpc <- pc; pc <- pc + 1` (R112). -/
def State.fetched (s : State) (n : Nat) : State :=
  { s with ir := some (s.wordAt n), lpc := some n, pc := .addr (n + 1) }

/-- Step 4 and step 5 for a decoded instruction: `x[0] <- 0`, the meaning, `x[0] <- 0` (R114, R115, R117). -/
def dispatch (i : Instr) (s : State) : Result := afterDispatch (exec i s.forceR0)

/-- Steps 3 to 5: the DECODER on IR, then the dispatch; `Undecodable` fails as `data` does (R113, R117; 45 R162). -/
def decodeAndDispatch (w : Word) (s : State) : Result :=
  match decodeWord w with
  | some i => dispatch i s
  | none => afterDispatch (execUndecodable s.forceR0)

/-- The whole cycle (R117). A pc outside [0, codeSize) fails in step 1 with the failing pc as target, IR, mnemonic and
arguments staying those of the previous cycle (R111; 60_exceptions.md R168; log entry 12). -/
def cycle (s : State) : Result :=
  match s.pc with
  | .halt => .next (s.begin.fail .pcOutOfBounds s.irInstr none)
  | .addr n =>
    if n < s.codeSize then decodeAndDispatch (s.wordAt n) (s.begin.fetched n)
    else .next (s.begin.fail .pcOutOfBounds s.irInstr (some n))

/-- While `waiting` is set no cycle runs: an answer of the host completes the `read` in IR, and without one no step is
possible (R110; 41_system_io.md R127; 93_implementation_defined.md U9; log entries 16 and 17). -/
def resumeRead (s : State) : Result :=
  match s.irInstr with
  | some (.read x) => if takeAnswer s.input = none then .fault .awaitingHost else dispatch (.read x) s
  | _ => .fault .waitingWithoutRead

/-- What a live run does when no abort takes effect: go on with a blocked `read`, or run one cycle (R110). -/
def advance (s : State) : Result := if s.waiting then resumeRead s else cycle s

/-- One step of a run in `Loaded` or `Running`: the host's abort when its time has come, between cycles or while
`read` is blocked (60_exceptions.md R174, R176); otherwise on with the run. -/
def liveStep (s : State) : Result :=
  if s.AbortDue then .next s.hostAborts else advance s.countDown

/-- One step: none is possible in a terminal state (R110, 10_state.md R30); see `resumeRead` for a blocked `read`. -/
def stepOnce (s : State) : Result :=
  match s.run with
  | .loaded => liveStep s
  | .running => liveStep s
  | .halted => .fault .runHalted
  | .failed => .fault .runFailed
  | .aborted => .fault .runAborted

/-- The address the next word is placed at: the pc, or 0 where the pc names no memory word. -/
def State.placeAddress (s : State) : Nat :=
  match s.pc with
  | .addr n => if n < 256 then n else 0
  | .halt => 0

/-- The state with word `w` at the address of the next fetch, that address inside the loaded program, and nothing that
keeps the next step from fetching it: a live run, no blocked `read`, no abort due now (log entry 21). -/
def State.placeWord (s : State) (w : Word) : State :=
  { s with
    mem := insertCell s.mem s.placeAddress w
    pc := .addr s.placeAddress
    codeSize := if s.placeAddress < s.codeSize then s.codeSize else s.placeAddress + 1
    run := if s.run = .loaded ∨ s.run = .running then s.run else .running
    waiting := false
    abortIn := if s.abortIn = some 0 then none else s.abortIn }

end Sys2Proof.Machine
end

