-- ==== Sys2Proof/Machine/Step.lean ====
section
/-! DEFINITION. The step of the machine, and the placing of the word that the next step runs. -/

namespace Sys2Proof.Machine

/-- One step of the machine: see `stepOnce` (40_cycle.md R110). -/
def step (s : State) : Host.Outcome State Fault Refusal := stepOnce s

/-- The state whose next step fetches and runs the word `w`: see `State.placeWord`. Every instruction is one 16-bit
word, so `nbits` beyond 16 names no further memory word (30_encoding.md R71; log entry 21). -/
def State.withFetchWord (s : State) (nbits w : Nat) : State := s.placeWord (BitVec.ofNat 16 (w % 2 ^ nbits))

end Sys2Proof.Machine
end

