-- ==== Sys2Proof/Machine/Codec.lean ====
section
/-! DEFINITION. The numeric CODEC: ripple-carry addition of bit strings, two's-complement conversion at any width
(30_encoding.md R63 to R69). `bitStringToInt` stands in Decode.lean, whose DECODER uses it. -/

namespace Sys2Proof

/-- `zeroext_L(a)`: pad on the left with zeros to length `l` (R64). -/
def zeroExtend (l : Nat) (a : BitString) : BitString := List.replicate (l - a.length) false ++ a

/-- The column sums of two equally long strings, and the carry out of the leftmost column (R64). -/
def rippleColumns (a b : BitString) : BitString × Bool :=
  match a, b with
  | x :: xs, y :: ys =>
    let right := rippleColumns xs ys
    let s := x.toNat + y.toNat + right.2.toNat
    (decide (s % 2 = 1) :: right.1, decide (s / 2 = 1))
  | _, _ => ([], false)

/-- `binaryAdd`: the shorter operand is zero-extended, a final carry is kept as a new leading bit (R64, D25). -/
def binaryAdd (a b : BitString) : BitString :=
  let l := max a.length b.length
  let columns := rippleColumns (zeroExtend l a) (zeroExtend l b)
  if columns.2 then true :: columns.1 else columns.1

/-- The `w`-bit binary string of a number below 2^w, most significant bit first (R65). -/
def binaryString (w n : Nat) : BitString :=
  match w with
  | 0 => []
  | w + 1 => n.testBit w :: binaryString w n

/-- `intToTwosComplement(v, w)`, default width 8: padded and added to zeros for v >= 0, complemented and incremented
for v < 0; refused outside w >= 1 and -2^w < v < 2^w (R65, R66, R68). -/
def intToTwosComplement (v : Int) (w : Nat := 8) : Except CodecError BitString :=
  if w < 1 ∨ v ≤ -(2 ^ w : Int) ∨ (2 ^ w : Int) ≤ v then .error .outOfDomain
  else if 0 ≤ v then .ok (binaryAdd (binaryString w v.toNat) (List.replicate w false))
  else .ok (binaryAdd ((binaryString w v.natAbs).map not) [true])

end Sys2Proof
end

