-- ==== Sys2Proof/Machine/Load.lean ====
section
/-! DEFINITION. The program image and its load: line format, rejection, and the state a run begins with
(70_reset_and_hazards.md R186 to R193). -/

namespace Sys2Proof.Machine

/-- A line of an image is its characters. -/
abbrev Line := List Char

/-- A blank line: no characters, or only spaces (R188). -/
def isBlank (line : Line) : Bool := line.all (· == ' ')

/-- Only 0, 1 and space may stand in a word line (R187, R189). -/
def hasOnlyImageCharacters (line : Line) : Bool := line.all (fun c => c == '0' || c == '1' || c == ' ')

/-- The word of a line: exactly 16 bits once its spaces are removed, the first being `W[15]` (R187, R189, D11). -/
def parseLine (line : Line) : Except LoadError Word :=
  if hasOnlyImageCharacters line then
    match wordOfText (line.filter (· != ' ')) with
    | some w => .ok w
    | none => .error .notSixteenBits
  else .error .badCharacter

/-- The words of the lines before the first blank line or the end of the file; later lines are neither loaded nor
checked (R188). The first bad line decides the error (log entry 19). -/
def parseLines (lines : List Line) : Except LoadError (List Word) :=
  match lines with
  | [] => .ok []
  | line :: rest =>
    if isBlank line then .ok []
    else
      match parseLine line with
      | .error e => .error e
      | .ok w =>
        match parseLines rest with
        | .error e => .error e
        | .ok ws => .ok (w :: ws)

/-- The words of an accepted image: 1 to 256 of them (R189). -/
def parseImage (lines : List Line) : Except LoadError (List Word) :=
  match parseLines lines with
  | .error e => .error e
  | .ok ws =>
    if ws.length = 0 then .error .noWords
    else if 256 < ws.length then .error .tooManyWords
    else .ok ws

/-- The memory that lists the image words from address `a` up (R186). -/
def imageCells (a : Nat) (words : List Word) : Memory :=
  match words with
  | [] => []
  | w :: rest => (a, w) :: imageCells (a + 1) rest

/-- Load: the state in which a run of an accepted image begins. Nothing of an earlier run is kept (R186, R193). -/
def State.load (words : List Word) : State :=
  { State.reset with codeSize := words.length, mem := imageCells 0 words }

/-- The load interface: one image or none; a rejected or missing image starts no run (R189, R190, 60 R170). -/
def loadProgram (image : Option (List Line)) : Except LoadError State :=
  match image with
  | none => .error .noImage
  | some lines =>
    match parseImage lines with
    | .error e => .error e
    | .ok ws => .ok (State.load ws)

end Sys2Proof.Machine
end

