-- ==== Sys2Proof/Safety.lean ====
section
/-! DEFINITION. What a sound state is, in the spec's terms, and what a step leaves alone: the words statements use. -/

namespace Sys2Proof.Machine

/-- A terminal run state: no step leaves it (10_state.md R30). -/
abbrev State.Terminal (s : State) : Prop := s.run = .halted ∨ s.run = .failed ∨ s.run = .aborted

/-- Every register holds a value in [-32768, 32767] (10_state.md R24). -/
def State.RegsInRange (s : State) : Prop := ∀ (r : Nat) (h : r < 16), InRange s.regs[r]

/-- Every emitted value is in [-32768, 32767] (10_state.md R43). -/
def State.OutInRange (s : State) : Prop := ∀ v ∈ s.out, InRange v

/-- Every word of the instruction region has been placed by the load (20_memory.md R54). -/
def State.CodePlaced (s : State) : Prop := ∀ a, a < s.codeSize → (lookupCell s.mem a).isSome = true

/-- The pc is an index not above codeSize, or the halt sentinel exactly when the run is halted (10_state.md R26, R30). -/
def State.PcLegal (s : State) : Prop :=
  (s.pc = .halt ↔ s.run = .halted) ∧ ∀ n, s.pc = .addr n → n ≤ s.codeSize

/-- The invariant of the machine between steps (10_state.md R43 with the rules of its fields). -/
structure State.Sound (s : State) : Prop where
  /-- x[0] = 0 between cycles (R22, R43) -/
  r0 : s.regs[0] = 0
  regs : s.RegsInRange
  out : s.OutInRange
  /-- 1 to 256 for a loaded program, 0 before any load (R27; log entry 7) -/
  codeSize : s.codeSize ≤ 256
  mem : s.mem.wf = true
  code : s.CodePlaced
  pc : s.PcLegal
  /-- lpc is an address of the instruction region, or unset (R28, R43) -/
  lpc : ∀ n, s.lpc = some n → n < s.codeSize
  /-- the diagnostic record is there exactly when the run has failed (R33) -/
  fault : s.fault.isSome = true ↔ s.run = .failed
  /-- only a running `read` waits (R31, 41_system_io.md R127) -/
  waiting : s.waiting = true → s.run = .running ∧ ∃ x, s.irInstr = some (.read x)

/-- A run that goes on: `Loaded` or `Running` (40_cycle.md R110). -/
abbrev State.Live (s : State) : Prop := s.run = .loaded ∨ s.run = .running

/-- `t` is `s` with register `x` holding `v` and nothing else changed: every other register, every other field and every
word of memory are the same; for `x` = r0 nothing is written (10_state.md R22). -/
def State.WritesReg (s t : State) (x : Reg) (v : Int) : Prop :=
  (x ≠ 0 → t.regs[x.val] = v)
  ∧ (∀ y : Reg, y ≠ x ∨ x = 0 → t.regs[y.val] = s.regs[y.val])
  ∧ t = { s with regs := t.regs }
  ∧ ∀ a, t.wordAt a = s.wordAt a

/-- `t` is `s` with the word at `a` replaced by `w` and nothing else changed: every register, every other field and
every other word of memory are the same. -/
def State.WritesWord (s t : State) (a : Nat) (w : Word) : Prop :=
  t.wordAt a = w ∧ (∀ b, b ≠ a → t.wordAt b = s.wordAt b) ∧ t = { s with mem := t.mem }

/-- `t` is `s` ended in `Failed` for cause `c` with target `target`, and nothing else changed: every register, the pc,
every word of memory and the output are the same. -/
def State.FailsBy (s t : State) (c : FailCause) (target : Option Int) : Prop :=
  t.run = .failed
  ∧ (∃ f, t.fault = some f ∧ f.cause = c ∧ f.target = target)
  ∧ t = { s with run := t.run, fault := t.fault }
  ∧ ∀ a, t.wordAt a = s.wordAt a

/-- The general register that an instruction's rule names as the one it writes; none for an instruction that writes none
(41_system_io.md to 45_invalid.md). -/
def destination (i : Instr) : Option Reg :=
  match i with
  | .read x | .loadn x _ | .load x _ | .loadi x _ | .addn x _ | .mov x _ | .add x _ _ | .neg x _ | .sub x _ _
  | .mul x _ _ | .div x _ _ | .mod x _ _ | .call x _ => some x
  | .halt | .write _ | .jumpi _ | .store _ _ | .storei _ _ | .nop | .jump _ | .jeqz _ _ | .jnez _ _ | .jgtz _ _
  | .jltz _ _ | .data _ => none

/-- Answers that the host has to give again: values outside [-32768, 32767] (41_system_io.md R126). -/
def AllTurnedAway (bad : List HostAnswer) : Prop := ∀ a ∈ bad, ∃ v, a = .value v ∧ ¬ InRange v

/-- Two states that differ at most in which spelling of the failing instruction the diagnostic record names. -/
def State.SameButSpelling (t u : State) : Prop :=
  t = { u with fault := t.fault }
  ∧ t.fault.map (fun f => (f.cause, f.pc, f.lpc, f.ir, f.target))
    = u.fault.map (fun f => (f.cause, f.pc, f.lpc, f.ir, f.target))

/-- The word with nibbles `a b c d`, from the left. -/
def nibbles (a b c d : Nat) : Word := BitVec.ofNat 16 (a * 4096 + b * 256 + c * 16 + d)

/-- The word with nibbles `a b` and then the byte `n`. -/
def nibblesByte (a b : Nat) (n : Imm8) : Word := BitVec.ofNat 16 (a * 4096 + b * 256 + n.toNat)

end Sys2Proof.Machine
end

