-- ==== Sys2Proof/Certificates/Slice0/Obligations.lean ====
section
/-! DEFINITION. The statements for the provers, from the numbered rules of spec/. -/

open Sys2Proof Sys2Proof.Machine

/-! ### Encoding and the DECODER -/

/-- Decode and encode agree: the word of every well-formed instruction decodes to it (R76, R77, R105). The bit patterns
are the spec's general knowledge (log entry 2). -/
def Obligations.DecodeOfEncodeIsIdentity : Prop :=
  ∀ i : Instr, i.wellFormed = true → decodeWord (encode i) = some i

/-- Every 16-bit word decodes to a well-formed instruction whose encoding is that word: no word is undecodable, no bit
is dropped (R79, R105, R106; log entry 2). -/
def Obligations.EncodeOfDecodeIsIdentity : Prop :=
  ∀ w : Word, ∃ i : Instr, decodeWord w = some i ∧ i.wellFormed = true ∧ encode i = w

/-- Every pattern of R80 to R104, read bit for bit: the word with the pattern's nibbles decodes to the instruction with
these operands, first match first. The patterns are the spec's general knowledge (K1; log entry 2). -/
def Obligations.PatternsDecodeBitForBit : Prop :=
  ∀ (x y z : Reg) (n : Imm8) (w : Word),
    decodeWord (nibbles 0 0 0 0) = some .halt
    ∧ decodeWord (nibbles 0 x 0 1) = some (.read x)
    ∧ decodeWord (nibbles 0 x 0 2) = some (.write x)
    ∧ decodeWord (nibbles 0 x 0 3) = some (.jumpi x)
    ∧ decodeWord (nibblesByte 1 x n) = some (.loadn x n)
    ∧ decodeWord (nibblesByte 2 x n) = some (.load x n)
    ∧ decodeWord (nibblesByte 3 x n) = some (.store x n)
    ∧ decodeWord (nibbles 4 x y 0) = some (.loadi x y)
    ∧ decodeWord (nibbles 4 x y 1) = some (.storei x y)
    ∧ decodeWord (nibblesByte 5 x n) = some (.addn x n)
    ∧ decodeWord (nibbles 6 0 0 0) = some .nop
    ∧ (x ≠ 0 ∨ y ≠ 0 → decodeWord (nibbles 6 x y 0) = some (.mov x y))
    ∧ (z ≠ 0 → decodeWord (nibbles 6 x y z) = some (.add x y z))
    ∧ decodeWord (nibbles 7 x 0 z) = some (.neg x z)
    ∧ (y ≠ 0 → decodeWord (nibbles 7 x y z) = some (.sub x y z))
    ∧ decodeWord (nibbles 8 x y z) = some (.mul x y z)
    ∧ decodeWord (nibbles 9 x y z) = some (.div x y z)
    ∧ decodeWord (nibbles 10 x y z) = some (.mod x y z)
    ∧ decodeWord (nibblesByte 11 0 n) = some (.jump n)
    ∧ (x ≠ 0 → decodeWord (nibblesByte 11 x n) = some (.call x n))
    ∧ decodeWord (nibblesByte 12 x n) = some (.jeqz x n)
    ∧ decodeWord (nibblesByte 13 x n) = some (.jnez x n)
    ∧ decodeWord (nibblesByte 14 x n) = some (.jgtz x n)
    ∧ decodeWord (nibblesByte 15 x n) = some (.jltz x n)
    ∧ (unassigned w = true → decodeWord w = some (.data w))

/-- A few words of 95_test_vectors.md part 2.2, one of each family, decode as that table says. The bit patterns are the
spec's general knowledge (K1, D1; log entry 2). -/
def Obligations.SampleWordsDecode : Prop :=
  decodeWord 0x0F02 = some (.write 15) ∧ decodeWord 0x0E03 = some (.jumpi 14) ∧ decodeWord 0x1180 = some (.loadn 1 0x80)
  ∧ decodeWord 0x4411 = some (.storei 4 1) ∧ decodeWord 0x6123 = some (.add 1 2 3) ∧ decodeWord 0x7102 = some (.neg 1 2)
  ∧ decodeWord 0xB105 = some (.call 1 5) ∧ decodeWord 0x4312 = some (.data 17170)

/-- R76: a word matches an entry when word AND mask equals the match value, and the first matching entry in table order
wins, for any table. -/
def Obligations.FirstMatchingEntryWins : Prop :=
  ∀ (table : List OpcodeRow) (w : Word),
    (∀ e, lookupRow table w = some e ↔
      ∃ before after, table = before ++ e :: after ∧ w &&& e.mask = e.value ∧ ∀ d ∈ before, w &&& d.mask ≠ d.value)
    ∧ (lookupRow table w = none ↔ ∀ d ∈ table, w &&& d.mask ≠ d.value)

/-- R79: what no entry matches is undecodable, in any table; a raw integer and a text that is not 16 characters of 0
and 1 decode to that result; with the table of the spec no 16-bit word does. -/
def Obligations.UndecodableExactlyWhenNotAWord : Prop :=
  (∀ v : Int, decode (.integer v) = .error .undecodable)
  ∧ (∀ cs : List Char, decode (.text cs) = .error .undecodable ↔ ¬ (cs.length = 16 ∧ ∀ c ∈ cs, c = '0' ∨ c = '1'))
  ∧ (∀ (table : List OpcodeRow) (w : Word), (∀ e ∈ table, w &&& e.mask ≠ e.value) → decodeWith table w = none)
  ∧ ∀ w : Word, ∃ i, decodeWord w = some i

/-- R106: the words that decode as `data` are exactly the listed unassigned ones, and executing one fails with
`InvalidOpcode`. Which words they are follows from the opcode table, the spec's general knowledge (K1, D1; log entry 2). -/
def Obligations.UnassignedWordsDecodeAsData : Prop :=
  ∀ w v : Word, (decodeWord w = some (.data v) ↔ v = w ∧ unassigned w = true)
    ∧ ∀ s, ∃ t, exec (.data w) s = .next t ∧ s.FailsBy t .invalidOpcode none

/-- R106: there are 7631 unassigned words. The count follows from the opcode table, the spec's general knowledge (K1, D1;
log entry 2). -/
def Obligations.UnassignedWordsNumber7631 : Prop :=
  (List.range 65536).countP (fun n => unassigned (BitVec.ofNat 16 n)) = 7631

/-- R78: the value of an `s` field is the CODEC's reading of its 8 bits, less 256 from 128 up; and the CODEC's 8-bit
string of that value is the field again. -/
def Obligations.SignedFieldIsTheCodecsReading : Prop :=
  ∀ n : Imm8,
    sext8 n = (bitStringToInt (binaryString 8 n.toNat) : Int)
      - (if 128 ≤ bitStringToInt (binaryString 8 n.toNat) then 256 else 0)
    ∧ intToTwosComplement (sext8 n) = .ok (binaryString 8 n.toNat)

/-- R109: the equivalent spellings have the same word, which decodes as the special one (R105; log entry 2). -/
def Obligations.EquivalentSpellingsShareTheirWord : Prop :=
  encode (.add 0 0 0) = encode .nop ∧ decodeWord (encode (.add 0 0 0)) = some .nop
  ∧ (∀ x y, encode (.add x y 0) = encode (.mov x y)
      ∧ (x ≠ 0 ∨ y ≠ 0 → decodeWord (encode (.add x y 0)) = some (.mov x y)))
  ∧ (∀ x z, encode (.sub x 0 z) = encode (.neg x z) ∧ decodeWord (encode (.sub x 0 z)) = some (.neg x z))
  ∧ (∀ n, encode (.call 0 n) = encode (.jump n) ∧ decodeWord (encode (.call 0 n)) = some (.jump n))
  ∧ ∀ w, encode (.data w) = w

/-- R107, on its four examples: the human-readable form. The form is the spec's own choice (D21; log entry 20), and which
instruction each word is comes from the opcode table, the spec's general knowledge (K1, D1; log entry 2). -/
def Obligations.ReadableFormExamples : Prop :=
  (decodeWord 0x6123).map Instr.text = some "add r1, r2, r3" ∧ (decodeWord 0x11FF).map Instr.text = some "loadn r1, -1"
  ∧ (decodeWord 0xB005).map Instr.text = some "jump 5" ∧ (decodeWord 0x0000).map Instr.text = some "halt"

/-! ### The CODEC -/

/-- R64: ripple-carry addition is exact: the string of the sum, as long as the longer operand, or one longer where a
carry is left. That the carry is kept is the spec's own choice (D25; log entry 18). -/
def Obligations.BinaryAddIsExact : Prop :=
  ∀ a b : BitString,
    binaryAdd a b =
      binaryString
        (if bitStringToInt a + bitStringToInt b < 2 ^ max a.length b.length then max a.length b.length
          else max a.length b.length + 1)
        (bitStringToInt a + bitStringToInt b)

/-- R67: the value of a bit string is the sum of its bits' weights, the leftmost bit weighing most; the empty string is
0; no value is negative. -/
def Obligations.BitStringValueIsWeightedSum : Prop :=
  bitStringToInt [] = 0
  ∧ ∀ b : BitString,
      bitStringToInt b = ∑ k : Fin b.length, (b[k]).toNat * 2 ^ (b.length - 1 - k.val)
      ∧ (0 : Int) ≤ bitStringToInt b

/-- R65: a value 0 <= v < 2^w gives its w-bit binary string; the default width is 8. -/
def Obligations.NonNegativeValuesArePadded : Prop :=
  ∀ (w v : Nat), 1 ≤ w → v < 2 ^ w →
    intToTwosComplement v w = .ok (binaryString w v) ∧ (binaryString w v).length = w
    ∧ bitStringToInt (binaryString w v) = v
    ∧ intToTwosComplement v = intToTwosComplement v 8

/-- R66 and R68: -2^w < v < 0 gives the w-bit string of 2^w + v, its leading bit 1 from -2^(w-1) up; any other input, or
a width below 1, is refused (the refusal is the spec's own choice, D25; log entry 18). -/
def Obligations.NegativeValuesAreComplemented : Prop :=
  ∀ (w : Nat) (v : Int),
    (1 ≤ w → -(2 ^ w : Int) < v → v < 0 →
      intToTwosComplement v w = .ok (binaryString w (2 ^ w + v).toNat)
      ∧ (-(2 ^ (w - 1) : Int) ≤ v → (binaryString w (2 ^ w + v).toNat).head? = some true))
    ∧ (w < 1 ∨ v ≤ -(2 ^ w : Int) ∨ (2 ^ w : Int) ≤ v → intToTwosComplement v w = .error .outOfDomain)

/-- R69: the round trip at widths 16 and 8: the unsigned reading is v mod 2^w, the signed reading of the word is v. -/
def Obligations.CodecRoundTrip : Prop :=
  (∀ v : Int, -32768 ≤ v → v ≤ 32767 →
    ∃ b, intToTwosComplement v 16 = .ok b ∧ b.length = 16 ∧ (bitStringToInt b : Int) = v % 65536
      ∧ sval (BitVec.ofNat 16 (bitStringToInt b)) = v)
  ∧ ∀ v : Int, -128 ≤ v → v ≤ 127 →
    ∃ b, intToTwosComplement v 8 = .ok b ∧ b.length = 8 ∧ (bitStringToInt b : Int) = v % 256
      ∧ sext8 (BitVec.ofNat 8 (bitStringToInt b)) = v

/-! ### Load and reset -/

/-- R186: what the load of an accepted image of k words establishes. -/
def Obligations.LoadEstablishesTheStart : Prop :=
  ∀ ws : List Word, 1 ≤ ws.length → ws.length ≤ 256 →
    (State.load ws).run = .loaded ∧ (State.load ws).codeSize = ws.length
    ∧ (∀ (k : Nat) (h : k < ws.length), (State.load ws).wordAt k = ws[k])
    ∧ (∀ k, ws.length ≤ k → k < 256 → (State.load ws).wordAt k = Config.dataInit k)
    ∧ (∀ x : Reg, (State.load ws).regs[x.val] = 0)
    ∧ (State.load ws).pc = .addr 0 ∧ (State.load ws).waiting = false ∧ (State.load ws).fault = none
    ∧ (State.load ws).out = [] ∧ (State.load ws).lpc = none ∧ (State.load ws).ir = none

/-- R187 to R190: which images are accepted, and as which words: 1 to 256 word lines before the first blank line, each
of 0, 1 and spaces with exactly 16 bits, the first being W[15]; no image is an error. The edge cases are the spec's own
choice (D11; log entry 19). -/
def Obligations.ImagesAcceptedAreExactlyTheWellFormed : Prop :=
  (∀ (lines : List Line) (ws : List Word), parseImage lines = .ok ws ↔
    1 ≤ ws.length ∧ ws.length ≤ 256 ∧ (lines.takeWhile (fun l => !isBlank l)).map parseLine = ws.map .ok)
  ∧ (∀ (line : Line) (w : Word), parseLine line = .ok w ↔
    (∀ c ∈ line, c = '0' ∨ c = '1' ∨ c = ' ') ∧ (line.filter (· != ' ')).length = 16
    ∧ ∀ k, k < 16 → (w.getLsbD (15 - k) = true ↔ (line.filter (· != ' '))[k]? = some '1'))
  ∧ loadProgram none = .error .noImage
  ∧ ∀ lines s, loadProgram (some lines) = .ok s ↔ ∃ ws, parseImage lines = .ok ws ∧ s = State.load ws

/-- Every loaded program begins in a sound state, with codeSize in 1..256 (R11, R27, R41). -/
def Obligations.LoadedStateIsSound : Prop :=
  ∀ image s, loadProgram image = .ok s → s.Sound ∧ 1 ≤ s.codeSize ∧ s.codeSize ≤ 256

/-- The state after reset is sound. That no image is placed there, with codeSize 0, is the model's choice (log entry 7). -/
def Obligations.ResetIsSound : Prop := State.reset.Sound

/-! ### The cycle and the run -/

/-- The invariant of R43 and of the rules it gathers (R22, R24, R26, R27, R28, R30, R31, R33): every step keeps it. That no
quotient leaves the register range rests on the policy `Fault` for -32768 div -1, the spec's own choice (R158, D9; log
entry 10); that codeSize may be 0 is the model's (log entry 7). -/
def Obligations.StepKeepsSound : Prop := ∀ s t : State, s.Sound → step s = .next t → t.Sound

/-- A sound state that is not terminal has a next state, whatever the program and the data (R110, R123), but for a `read`
blocked on a host with neither a valid answer nor an abort to come: there, and only there, no step is possible (R110,
R199, U9). Queue and count-down are the model's own form of the host (log entries 5 and 6), and that a step which is not
possible answers a fault of its own name is the model's (log entry 16). -/
def Obligations.SoundLiveStatesStep : Prop :=
  ∀ s : State, s.Sound → ¬ s.Terminal →
    (s.waiting = true ∧ AllTurnedAway s.input ∧ s.abortIn = none → step s = .fault .awaitingHost)
    ∧ (¬ (s.waiting = true ∧ AllTurnedAway s.input ∧ s.abortIn = none) → ∃ t, step s = .next t)

/-- No step is possible in `Halted`, `Failed` or `Aborted` (R30, R110). -/
def Obligations.TerminalStatesHaveNoStep : Prop := ∀ s t : State, s.Terminal → step s ≠ .next t

/-- A step runs the decoded instruction (R110 to R117): on a live run with the pc in the instruction region, the step
is the meaning of the instruction decoded at pc, on the state with IR, lpc and pc of step 2, x[0] forced to 0 before and
after; the model's own count-down to a host abort goes on (log entry 6). -/
def Obligations.StepRunsTheDecodedInstruction : Prop :=
  ∀ (s : State) (n : Nat) (i : Instr), s.Live → s.waiting = false → s.abortIn ≠ some 0 → s.pc = .addr n →
    n < s.codeSize → decodeWord (s.wordAt n) = some i →
    step s =
      match exec i { s with run := .running, ir := some (s.wordAt n), lpc := some n, pc := .addr (n + 1),
                            regs := s.regs.set 0 0, abortIn := s.abortIn.map (· - 1) } with
      | .next u => .next { u with regs := u.regs.set 0 0 }
      | .fault f => .fault f
      | .refused r => .refused r

/-- R48 and R111: a pc outside [0, codeSize) fails in step 1 with `PcOutOfBounds`, the failing pc as target, and the pc,
lpc, IR, registers, memory and output as they were; the model's own count-down to a host abort goes on (log entry 6).
What the record holds is the spec's own choice (R33, R168, D5): the pc, lpc and IR of the state, and the mnemonic and the
arguments of the previous cycle, which are those of the word in IR, and empty while IR is unset (log entry 12). -/
def Obligations.PcOutsideCodeFails : Prop :=
  ∀ (s : State) (n : Nat), s.Live → s.waiting = false → s.abortIn ≠ some 0 → s.pc = .addr n → s.codeSize ≤ n →
    ∃ t, step s = .next t
      ∧ State.FailsBy { s with abortIn := s.abortIn.map (· - 1) } t .pcOutOfBounds (some (n : Int))
      ∧ ∃ f, t.fault = some f ∧ f.pc = s.pc ∧ f.lpc = s.lpc ∧ f.ir = s.ir
        ∧ (s.ir = none → f.mnemonic = none ∧ f.args = [])
        ∧ ∀ w i, s.ir = some w → decodeWord w = some i → f.mnemonic = some i.mnemonic ∧ f.args = i.args

/-- R60 with R27: no step of any run changes codeSize or any word of the instruction region. -/
def Obligations.CodeNeverChanges : Prop :=
  ∀ s t : State, step s = .next t → t.codeSize = s.codeSize ∧ ∀ a, a < s.codeSize → t.wordAt a = s.wordAt a

/-- A step that ends in `Failed` has written no register, no memory word and no output, and taken no answer of the host;
pc, lpc and IR hold what R172 says. That every failure is precise is the spec's own choice (D6; log entry 12). -/
def Obligations.FailedStepIsPrecise : Prop :=
  ∀ s t : State, step s = .next t → t.run = .failed →
    (∀ r : Reg, t.reg r = s.reg r) ∧ (∀ a, t.wordAt a = s.wordAt a) ∧ t.mem = s.mem ∧ t.out = s.out
    ∧ t.codeSize = s.codeSize ∧ t.input = s.input
    ∧ ∀ n, s.pc = .addr n →
        (s.codeSize ≤ n → t.pc = s.pc ∧ t.lpc = s.lpc ∧ t.ir = s.ir)
        ∧ (n < s.codeSize → t.pc = .addr (n + 1) ∧ t.lpc = some n ∧ t.ir = some (s.wordAt n))

/-- What the diagnostic record of an instruction's failure holds (R33, R168): the spec's own choice (D5; log entry 12).
The step's own failure, cause 1, is in `PcOutsideCodeFails`. -/
def Obligations.FailureRecordHoldsTheContext : Prop :=
  ∀ (i : Instr) (s t : State), s.run ≠ .failed → exec i s = .next t → t.run = .failed →
    ∃ c target,
      t = { s with
            run := .failed
            fault := some ⟨c, s.pc, s.lpc, s.ir, some i.mnemonic, i.args, target⟩ }
      ∧ c ≠ .pcOutOfBounds
      ∧ (target = none ↔ c = .divideByZero ∨ c = .invalidOpcode)

/-- Every step adds at most one value to the output and takes none back (R38, R120). -/
def Obligations.OutputOnlyGrows : Prop :=
  ∀ s t : State, step s = .next t → ∃ vs, t.out = s.out ++ vs ∧ vs.length ≤ 1

/-- The run becomes `Halted`, with pc = HALT, in exactly the steps that run a `halt` (R30, R125). -/
def Obligations.HaltedExactlyByHalt : Prop :=
  ∀ s t : State, step s = .next t →
    (t.run = .halted ↔
      s.waiting = false ∧ s.abortIn ≠ some 0
      ∧ ∃ n, s.pc = .addr n ∧ n < s.codeSize ∧ decodeWord (s.wordAt n) = some .halt)
    ∧ (t.run = .halted → t.pc = .halt)

/-- The run becomes `Aborted` only by the host: by its signal, at its time or where a blocked `read` without an answer
leaves no other step possible, or by its answer to a `read` that the step runs or completes (R126, R176, D12). Queue and
count-down are the model's own form of the host (log entries 5 and 6). -/
def Obligations.AbortedOnlyByTheHost : Prop :=
  ∀ s t : State, step s = .next t → t.run = .aborted →
    s.abortIn = some 0
    ∨ (s.waiting = true ∧ AllTurnedAway s.input ∧ s.abortIn ≠ none)
    ∨ ∃ x bad rest, AllTurnedAway bad ∧ s.input = bad ++ .abort :: rest
        ∧ ((s.waiting = true ∧ s.irInstr = some (.read x))
          ∨ (s.waiting = false ∧ ∃ n, s.pc = .addr n ∧ n < s.codeSize ∧ decodeWord (s.wordAt n) = some (.read x)))

/-- The host's abort ends a live run in `Aborted` and writes nothing else, between cycles and during a blocked `read`
(R174, R176; the run state's name is the spec's own choice, D12, D20). That it comes when its count-down is at 0, or
before where a blocked `read` without an answer leaves no other step possible, is the model's form (log entry 6). -/
def Obligations.HostAbortEndsTheRun : Prop :=
  ∀ s : State, s.Live → s.abortIn = some 0 ∨ (s.waiting = true ∧ AllTurnedAway s.input ∧ s.abortIn ≠ none) →
    step s = .next { s with run := .aborted, waiting := false }

/-- R22 and R115: no meaning writes x[0], and none can tell what is stored there: it reads as 0. That a write to r0 is
discarded where R22 lets it happen and then forces x[0] to 0 is the model's choice of form (log entry 13). -/
def Obligations.RegisterZeroIsHardwired : Prop :=
  ∀ (i : Instr) (s t : State), exec i s = .next t →
    t.regs[0] = s.regs[0]
    ∧ exec i { s with regs := s.regs.set 0 0 } = .next { t with regs := t.regs.set 0 0 }

/-- R120: a cycle that goes on running writes IR, lpc, pc, x[0] and what its instruction's rule names, and nothing else:
the destination register of an instruction that has one, the word at the address of a `store` or `storei`, the output
value of a `write`, the answer that a `read` takes. The queue of answers and the count-down to an abort are the model's
own (log entries 5 and 6). -/
def Obligations.CycleWritesAtMostOneResult : Prop :=
  ∀ (s t : State) (n : Nat) (i : Instr), s.waiting = false → s.abortIn ≠ some 0 → s.pc = .addr n → n < s.codeSize →
    decodeWord (s.wordAt n) = some i → step s = .next t → t.run = .running → t.waiting = false →
    t.ir = some (s.wordAt n) ∧ t.lpc = some n ∧ t.codeSize = s.codeSize ∧ t.fault = s.fault ∧ t.regs[0] = 0
    ∧ t.abortIn = s.abortIn.map (· - 1)
    ∧ (∀ y : Reg, y ≠ 0 → destination i ≠ some y → t.regs[y.val] = s.regs[y.val])
    ∧ (∀ x m, i = .store x m → (s.codeSize : Int) ≤ directAddress m ∧ directAddress m < 256
        ∧ t.wordAt (directAddress m).toNat = int16 (s.reg x)
        ∧ ∀ b, b ≠ (directAddress m).toNat → t.wordAt b = s.wordAt b)
    ∧ (∀ x y, i = .storei x y → (s.codeSize : Int) ≤ s.indirectAddress y ∧ s.indirectAddress y < 256
        ∧ t.wordAt (s.indirectAddress y).toNat = int16 (s.reg x)
        ∧ ∀ b, b ≠ (s.indirectAddress y).toNat → t.wordAt b = s.wordAt b)
    ∧ ((∀ x m, i ≠ .store x m) → (∀ x y, i ≠ .storei x y) → t.mem = s.mem)
    ∧ (∀ x, i = .write x → t.out = s.out ++ [s.reg x]) ∧ ((∀ x, i ≠ .write x) → t.out = s.out)
    ∧ (∀ x, i = .read x → ∃ bad v, AllTurnedAway bad ∧ InRange v ∧ s.input = bad ++ .value v :: t.input)
    ∧ ((∀ x, i ≠ .read x) → t.input = s.input)

/-- The state made by `withFetchWord` runs that word in its very next step: the model's own placing of a program word
(log entries 7 and 21). codeSize is raised where the word lies beyond it, the word stands at its address, and an abort
that was due is put off; the rest of the state is as it was, x[0] forced to 0 and step 2 of the cycle done. -/
def Obligations.PlacedWordRunsNext : Prop :=
  ∀ (s : State) (w : Nat) (i : Instr), w < 65536 → decodeTableWord 16 w = some i →
    ∃ p : State,
      p.regs = s.regs.set 0 0 ∧ p.run = .running ∧ p.ir = some (BitVec.ofNat 16 w) ∧ p.lpc = some s.placeAddress
      ∧ p.pc = .addr (s.placeAddress + 1) ∧ p.waiting = false ∧ p.fault = s.fault ∧ p.out = s.out ∧ p.input = s.input
      ∧ (∀ r : Reg, p.reg r = s.reg r)
      ∧ p.wordAt s.placeAddress = BitVec.ofNat 16 w ∧ (∀ a, a ≠ s.placeAddress → p.wordAt a = s.wordAt a)
      ∧ p.codeSize = max s.codeSize (s.placeAddress + 1)
      ∧ p.abortIn = (if s.abortIn = some 0 then none else s.abortIn.map (· - 1))
      ∧ step (s.withFetchWord 16 w) =
        match exec i p with
        | .next u => .next { u with regs := u.regs.set 0 0 }
        | .fault f => .fault f
        | .refused r => .refused r

/-! ### System and I/O -/

/-- R125: `halt` sets pc to HALT and the run state to `Halted`, and changes nothing else. -/
def Obligations.HaltStopsTheRun : Prop :=
  ∀ s : State, exec .halt s = .next { s with pc := .halt, run := .halted }

/-- R126: `read` writes the first valid answer to its register, or ends the run in `Aborted` with no register written,
or blocks with `waiting` set while there is no answer; answers out of range are passed over. The queue is the model's
own form of the host (log entry 5). -/
def Obligations.ReadTakesTheHostsAnswer : Prop :=
  ∀ (x : Reg) (s : State) (bad rest : List HostAnswer), AllTurnedAway bad →
    (∀ v, InRange v → s.input = bad ++ .value v :: rest →
      ∃ t, exec (.read x) s = .next t ∧ State.WritesReg { s with waiting := false, input := rest } t x v)
    ∧ (s.input = bad ++ .abort :: rest →
      exec (.read x) s = .next { s with waiting := false, input := rest, run := .aborted })
    ∧ (s.input = bad → exec (.read x) s = .next { s with waiting := true, input := [] })

/-- R127 with R110, R199 and U9, at the level of steps: while `waiting` is set no cycle runs. Without an answer no step is
possible until the host answers, but for its abort if that is to come; with an answer, the blocked `read` is completed.
Queue, count-down and the name of the fault are the model's own form (log entries 5, 6 and 16). -/
def Obligations.BlockedReadWaitsForTheHost : Prop :=
  ∀ (x : Reg) (s : State) (bad rest : List HostAnswer), s.run = .running → s.waiting = true → s.abortIn ≠ some 0 →
    s.irInstr = some (.read x) → s.regs[0] = 0 → AllTurnedAway bad →
    (s.input = bad → s.abortIn = none → step s = .fault .awaitingHost)
    ∧ (s.input = bad → s.abortIn ≠ none → step s = .next { s with waiting := false, run := .aborted })
    ∧ (∀ v, InRange v → s.input = bad ++ .value v :: rest →
      ∃ t, step s = .next t
        ∧ State.WritesReg { s with waiting := false, input := rest, abortIn := s.abortIn.map (· - 1) } t x v)
    ∧ (s.input = bad ++ .abort :: rest →
      step s = .next { s with waiting := false, input := rest, run := .aborted, abortIn := s.abortIn.map (· - 1) })

/-- R128: `write` appends the register's value to the output and changes nothing else; `write r0` emits 0. -/
def Obligations.WriteEmitsTheRegister : Prop :=
  ∀ (x : Reg) (s : State),
    exec (.write x) s = .next { s with out := s.out ++ [if x = 0 then 0 else s.regs[x.val]] }

/-! ### Control transfer -/

/-- R131: `jumpi` jumps to the full signed register value when it is in [0, codeSize), and fails with
`JumpOutOfBounds` otherwise (no truncation, D28; log entry 14). -/
def Obligations.JumpiGoesToTheRegistersValue : Prop :=
  ∀ (x : Reg) (s : State),
    (∀ k : Nat, k < s.codeSize → s.reg x = k → exec (.jumpi x) s = .next { s with pc := .addr k })
    ∧ (s.reg x < 0 ∨ (s.codeSize : Int) ≤ s.reg x →
      ∃ t, exec (.jumpi x) s = .next t ∧ s.FailsBy t .jumpOutOfBounds (some (s.reg x)))

/-- R132: `jump` sets the pc to a target below codeSize and fails with `JumpOutOfBounds` otherwise; only the pc or the
run state and its record change. -/
def Obligations.JumpGoesToTheImmediate : Prop :=
  ∀ (n : Imm8) (s : State),
    (n.toNat < s.codeSize → exec (.jump n) s = .next { s with pc := .addr n.toNat })
    ∧ (s.codeSize ≤ n.toNat → ∃ t, exec (.jump n) s = .next t ∧ s.FailsBy t .jumpOutOfBounds (some (n.toNat : Int)))

/-- R133: `call` stores the pc of step 2, the address of the next word, in its link register (in none when that is r0)
and jumps; a target not below codeSize fails with nothing written. -/
def Obligations.CallLinksAndJumps : Prop :=
  ∀ (x : Reg) (n : Imm8) (p : Nat) (s : State), s.pc = .addr p →
    (n.toNat < s.codeSize →
      ∃ t, exec (.call x n) s = .next t ∧ State.WritesReg { s with pc := .addr n.toNat } t x p)
    ∧ (s.codeSize ≤ n.toNat → ∃ t, exec (.call x n) s = .next t ∧ s.FailsBy t .jumpOutOfBounds (some (n.toNat : Int)))

/-- R134: a conditional jump checks its target always, before the test, and fails on a bad one even when the register's
value would not take it; with a legal target it jumps when its condition holds of the register's value and otherwise
leaves the pc at the next word. Nothing else changes. -/
def Obligations.ConditionalJumpsAlwaysCheckTheirTarget : Prop :=
  ∀ (x : Reg) (n : Imm8) (s : State),
    (n.toNat < s.codeSize →
      exec (.jeqz x n) s = .next (if s.reg x = 0 then { s with pc := .addr n.toNat } else s)
      ∧ exec (.jnez x n) s = .next (if s.reg x ≠ 0 then { s with pc := .addr n.toNat } else s)
      ∧ exec (.jgtz x n) s = .next (if s.reg x > 0 then { s with pc := .addr n.toNat } else s)
      ∧ exec (.jltz x n) s = .next (if s.reg x < 0 then { s with pc := .addr n.toNat } else s))
    ∧ (s.codeSize ≤ n.toNat →
      ∀ i, i = .jeqz x n ∨ i = .jnez x n ∨ i = .jgtz x n ∨ i = .jltz x n →
        ∃ t, exec i s = .next t ∧ s.FailsBy t .jumpOutOfBounds (some (n.toNat : Int)))

/-! ### Loads and stores -/

/-- R140: `loadn` writes its 8-bit immediate read as signed, -128 to 127; memory is not accessed. -/
def Obligations.LoadnWritesTheSignedImmediate : Prop :=
  ∀ (x : Reg) (n : Imm8) (s : State), ∃ t, exec (.loadn x n) s = .next t
    ∧ s.WritesReg t x (if n.toNat < 128 then (n.toNat : Int) else (n.toNat : Int) - 256)

/-- R47: every data access first checks codeSize <= a < 256; where that does not hold the run fails, with
`LoadOutOfBounds` for `load` and `loadi` and `StoreOutOfBounds` for `store` and `storei`, and no memory word or register
is changed; where it holds the access does not fail. That the address of `loadi` and `storei` is the full signed register
value, with no truncation, is the spec's own choice (R50, D26; log entry 14). -/
def Obligations.DataAccessesAreChecked : Prop :=
  ∀ (x y : Reg) (n : Imm8) (s : State),
    (∀ (i : Instr) (a : Int), (i = .load x n ∧ a = n.toNat) ∨ (i = .loadi x y ∧ a = s.reg y) →
      ∃ t, exec i s = .next t
        ∧ (¬ ((s.codeSize : Int) ≤ a ∧ a < 256) → s.FailsBy t .loadOutOfBounds (some a))
        ∧ ((s.codeSize : Int) ≤ a ∧ a < 256 → t.run = s.run ∧ t.fault = s.fault))
    ∧ ∀ (i : Instr) (a : Int), (i = .store x n ∧ a = n.toNat) ∨ (i = .storei x y ∧ a = s.reg y) →
      ∃ t, exec i s = .next t
        ∧ (¬ ((s.codeSize : Int) ≤ a ∧ a < 256) → s.FailsBy t .storeOutOfBounds (some a))
        ∧ ((s.codeSize : Int) ≤ a ∧ a < 256 → t.run = s.run ∧ t.fault = s.fault)

/-- R141 and R143: inside the data region `load` and `loadi` write the signed value of the word at their address to
their register, and nothing else (a write to r0 is lost); no address is truncated (D26; log entry 14). -/
def Obligations.LoadsReadTheDataRegion : Prop :=
  ∀ (x y : Reg) (n : Imm8) (s : State),
    (s.codeSize ≤ n.toNat → ∃ t, exec (.load x n) s = .next t ∧ s.WritesReg t x (sval (s.wordAt n.toNat)))
    ∧ ∀ a : Nat, s.codeSize ≤ a → a < 256 → s.reg y = a →
      ∃ t, exec (.loadi x y) s = .next t ∧ s.WritesReg t x (sval (s.wordAt a))

/-- R142 and R144: inside the data region `store` and `storei` write the register's value to the word at their address
(the immediate; the value of rY) and leave every other word, every register and every other field alone; the word then
reads as the register's value. -/
def Obligations.StoresWriteTheDataRegion : Prop :=
  ∀ (x y : Reg) (n : Imm8) (s : State),
    (∀ a : Int, a = directAddress n → (s.codeSize : Int) ≤ a → a < 256 →
      ∃ t, exec (.store x n) s = .next t ∧ s.WritesWord t a.toNat (int16 (s.reg x))
        ∧ (InRange (s.reg x) → t.memRead a.toNat = s.reg x))
    ∧ ∀ a : Int, a = s.indirectAddress y → (s.codeSize : Int) ≤ a → a < 256 →
      ∃ t, exec (.storei x y) s = .next t ∧ s.WritesWord t a.toNat (int16 (s.reg x))
        ∧ (InRange (s.reg x) → t.memRead a.toNat = s.reg x)

/-! ### Arithmetic -/

/-- R149, R150, R151, R153, R154, R155: when the exact result is in range, `addn`, `add`, `mov`, `sub`, `neg` and `mul`
write it to their register and change nothing else (a write to r0 is lost). -/
def Obligations.ArithmeticWritesTheExactResult : Prop :=
  ∀ (x y z : Reg) (n : Imm8) (s : State) (i : Instr) (r : Int),
    (i = .addn x n ∧ r = s.reg x + sext8 n) ∨ (i = .add x y z ∧ r = s.reg y + s.reg z) ∨ (i = .mov x y ∧ r = s.reg y)
      ∨ (i = .sub x y z ∧ r = s.reg y - s.reg z) ∨ (i = .neg x z ∧ r = -s.reg z)
      ∨ (i = .mul x y z ∧ r = s.reg y * s.reg z) →
    InRange r → ∃ t, exec i s = .next t ∧ s.WritesReg t x r

/-- R147: when the exact result is out of range they fail with `ArithmeticOverflow`, the result as target and the
destination not written, whatever the destination; nothing wraps. That r0 is no exception is the spec's own choice
(R148, D23; log entry 13). -/
def Obligations.ArithmeticOverflowFails : Prop :=
  ∀ (x y z : Reg) (n : Imm8) (s : State) (i : Instr) (r : Int),
    (i = .addn x n ∧ r = s.reg x + sext8 n) ∨ (i = .add x y z ∧ r = s.reg y + s.reg z) ∨ (i = .mov x y ∧ r = s.reg y)
      ∨ (i = .sub x y z ∧ r = s.reg y - s.reg z) ∨ (i = .neg x z ∧ r = -s.reg z)
      ∨ (i = .mul x y z ∧ r = s.reg y * s.reg z) →
    ¬ InRange r → ∃ t, exec i s = .next t ∧ s.FailsBy t .arithmeticOverflow (some r)

/-- R152: `nop` changes nothing of the state it is dispatched on. -/
def Obligations.NopChangesNothing : Prop := ∀ s : State, exec .nop s = .next s

/-- R156: `div` writes the quotient rounded toward minus infinity and changes nothing else, for operands in range and a
divisor not 0, but for -32768 div -1. -/
def Obligations.DivWritesTheFloorQuotient : Prop :=
  ∀ (x y z : Reg) (s : State), InRange (s.reg y) → InRange (s.reg z) → s.reg z ≠ 0 →
    ¬ (s.reg y = -32768 ∧ s.reg z = -1) →
    ∃ t, exec (.div x y z) s = .next t ∧ s.WritesReg t x ⌊(s.reg y : ℚ) / (s.reg z : ℚ)⌋

/-- R158: -32768 div -1 is the only quotient out of range; with the policy `Fault` it fails with `ArithmeticOverflow`
and writes nothing, and under the other two policies -32768 or 32768 would be written. The policy is the spec's own
choice (D9; log entry 10). -/
def Obligations.DivisionCornerFollowsThePolicy : Prop :=
  (∀ a b : Int, InRange a → InRange b → b ≠ 0 → (¬ InRange ⌊(a : ℚ) / (b : ℚ)⌋ ↔ a = -32768 ∧ b = -1))
  ∧ (∀ (x y z : Reg) (s : State), s.reg y = -32768 → s.reg z = -1 →
    ∃ t, exec (.div x y z) s = .next t ∧ s.FailsBy t .arithmeticOverflow (some 32768))
  ∧ ∀ (i : Instr) (x : Reg) (s : State),
    (∃ t, writeQuotient .fault i x 32768 s = .next t ∧ s.FailsBy t .arithmeticOverflow (some 32768))
    ∧ (∃ t, writeQuotient .wrap i x 32768 s = .next t ∧ s.WritesReg t x (-32768))
    ∧ ∃ t, writeQuotient .unbounded i x 32768 s = .next t ∧ s.WritesReg t x 32768

/-- R157: `mod` writes the remainder that goes with the floor quotient, which lies between 0 and the divisor, and changes
nothing else. The remainder's sign is the spec's own choice (D8; log entry 11). -/
def Obligations.ModWritesTheFloorRemainder : Prop :=
  ∀ (x y z : Reg) (s : State), s.reg z ≠ 0 →
    ∃ t m, exec (.mod x y z) s = .next t ∧ s.WritesReg t x m
      ∧ m = s.reg y - s.reg z * ⌊(s.reg y : ℚ) / (s.reg z : ℚ)⌋
      ∧ (0 < s.reg z → 0 ≤ m ∧ m < s.reg z) ∧ (s.reg z < 0 → s.reg z < m ∧ m ≤ 0)

/-- R156 and R157: a zero divisor fails `div` and `mod` with `DivideByZero`, no target, nothing written. -/
def Obligations.ZeroDivisorFails : Prop :=
  ∀ (x y z : Reg) (s : State) (i : Instr), i = .div x y z ∨ i = .mod x y z → s.reg z = 0 →
    ∃ t, exec i s = .next t ∧ s.FailsBy t .divideByZero none

/-- R105: the specialisations compute the same as the general instruction whose word they share, in every state: `nop`,
`mov`, `neg`, `jump` against `add`, `sub`, `call`; a failure's record differs only in the spelling it names. -/
def Obligations.SpecialisationsComputeTheSame : Prop :=
  ∀ (x y z : Reg) (n : Imm8) (s : State) (i j : Instr),
    (i = .nop ∧ j = .add 0 0 0) ∨ (i = .mov x y ∧ j = .add x y 0) ∨ (i = .neg x z ∧ j = .sub x 0 z)
      ∨ (i = .jump n ∧ j = .call 0 n) →
    ∃ t u, exec i s = .next t ∧ exec j s = .next u ∧ t.SameButSpelling u

/-! ### Data words -/

/-- R161: a word that matches no entry before `data` is `data` of that word, and executing it always fails with
`InvalidOpcode` and no target, the record holding IR = the word and lpc = its address. -/
def Obligations.DataWordFails : Prop :=
  (∀ w : Word, (∀ e ∈ opcodeTable, e.mnemonic ≠ .data → w &&& e.mask ≠ e.value) → decodeWord w = some (.data w))
  ∧ (∀ (w : Word) (s : State), ∃ t f, exec (.data w) s = .next t ∧ s.FailsBy t .invalidOpcode none
      ∧ t.fault = some f ∧ f.ir = s.ir ∧ f.lpc = s.lpc)
  ∧ ∀ (w : Word) (s : State) (n : Nat), s.Live → s.waiting = false → s.abortIn ≠ some 0 → s.pc = .addr n →
      n < s.codeSize → s.wordAt n = w → decodeWord w = some (.data w) →
      ∃ t f, step s = .next t ∧ t.run = .failed ∧ t.fault = some f ∧ f.cause = .invalidOpcode ∧ f.target = none
        ∧ f.ir = some w ∧ f.lpc = some n
end

