-- ==== Sys2Proof/Laws/State.lean ====
section
/-! SUPPORT. Each named update of the state, field by field, so that no proof unfolds a record update. -/

namespace Sys2Proof.Machine

variable (s : State)

@[simp] theorem State.memWrite_regs (a : Nat) (v : Int) : (s.memWrite a v).regs = s.regs := rfl
@[simp] theorem State.memWrite_pc (a : Nat) (v : Int) : (s.memWrite a v).pc = s.pc := rfl
@[simp] theorem State.memWrite_codeSize (a : Nat) (v : Int) : (s.memWrite a v).codeSize = s.codeSize := rfl
@[simp] theorem State.memWrite_lpc (a : Nat) (v : Int) : (s.memWrite a v).lpc = s.lpc := rfl
@[simp] theorem State.memWrite_ir (a : Nat) (v : Int) : (s.memWrite a v).ir = s.ir := rfl
@[simp] theorem State.memWrite_run (a : Nat) (v : Int) : (s.memWrite a v).run = s.run := rfl
@[simp] theorem State.memWrite_waiting (a : Nat) (v : Int) : (s.memWrite a v).waiting = s.waiting := rfl
@[simp] theorem State.memWrite_fault (a : Nat) (v : Int) : (s.memWrite a v).fault = s.fault := rfl
@[simp] theorem State.memWrite_mem (a : Nat) (v : Int) : (s.memWrite a v).mem = insertCell s.mem a (int16 v) := rfl
@[simp] theorem State.memWrite_out (a : Nat) (v : Int) : (s.memWrite a v).out = s.out := rfl
@[simp] theorem State.memWrite_input (a : Nat) (v : Int) : (s.memWrite a v).input = s.input := rfl
@[simp] theorem State.memWrite_abortIn (a : Nat) (v : Int) : (s.memWrite a v).abortIn = s.abortIn := rfl

@[simp] theorem State.forceR0_regs : (s.forceR0).regs = s.regs.set 0 0 := rfl
@[simp] theorem State.forceR0_pc : (s.forceR0).pc = s.pc := rfl
@[simp] theorem State.forceR0_codeSize : (s.forceR0).codeSize = s.codeSize := rfl
@[simp] theorem State.forceR0_lpc : (s.forceR0).lpc = s.lpc := rfl
@[simp] theorem State.forceR0_ir : (s.forceR0).ir = s.ir := rfl
@[simp] theorem State.forceR0_run : (s.forceR0).run = s.run := rfl
@[simp] theorem State.forceR0_waiting : (s.forceR0).waiting = s.waiting := rfl
@[simp] theorem State.forceR0_fault : (s.forceR0).fault = s.fault := rfl
@[simp] theorem State.forceR0_mem : (s.forceR0).mem = s.mem := rfl
@[simp] theorem State.forceR0_out : (s.forceR0).out = s.out := rfl
@[simp] theorem State.forceR0_input : (s.forceR0).input = s.input := rfl
@[simp] theorem State.forceR0_abortIn : (s.forceR0).abortIn = s.abortIn := rfl

@[simp] theorem State.setPc_regs (t : Nat) : (s.setPc t).regs = s.regs := rfl
@[simp] theorem State.setPc_pc (t : Nat) : (s.setPc t).pc = .addr t := rfl
@[simp] theorem State.setPc_codeSize (t : Nat) : (s.setPc t).codeSize = s.codeSize := rfl
@[simp] theorem State.setPc_lpc (t : Nat) : (s.setPc t).lpc = s.lpc := rfl
@[simp] theorem State.setPc_ir (t : Nat) : (s.setPc t).ir = s.ir := rfl
@[simp] theorem State.setPc_run (t : Nat) : (s.setPc t).run = s.run := rfl
@[simp] theorem State.setPc_waiting (t : Nat) : (s.setPc t).waiting = s.waiting := rfl
@[simp] theorem State.setPc_fault (t : Nat) : (s.setPc t).fault = s.fault := rfl
@[simp] theorem State.setPc_mem (t : Nat) : (s.setPc t).mem = s.mem := rfl
@[simp] theorem State.setPc_out (t : Nat) : (s.setPc t).out = s.out := rfl
@[simp] theorem State.setPc_input (t : Nat) : (s.setPc t).input = s.input := rfl
@[simp] theorem State.setPc_abortIn (t : Nat) : (s.setPc t).abortIn = s.abortIn := rfl

@[simp] theorem State.stop_regs : (s.stop).regs = s.regs := rfl
@[simp] theorem State.stop_pc : (s.stop).pc = .halt := rfl
@[simp] theorem State.stop_codeSize : (s.stop).codeSize = s.codeSize := rfl
@[simp] theorem State.stop_lpc : (s.stop).lpc = s.lpc := rfl
@[simp] theorem State.stop_ir : (s.stop).ir = s.ir := rfl
@[simp] theorem State.stop_run : (s.stop).run = .halted := rfl
@[simp] theorem State.stop_waiting : (s.stop).waiting = s.waiting := rfl
@[simp] theorem State.stop_fault : (s.stop).fault = s.fault := rfl
@[simp] theorem State.stop_mem : (s.stop).mem = s.mem := rfl
@[simp] theorem State.stop_out : (s.stop).out = s.out := rfl
@[simp] theorem State.stop_input : (s.stop).input = s.input := rfl
@[simp] theorem State.stop_abortIn : (s.stop).abortIn = s.abortIn := rfl

@[simp] theorem State.begin_regs : (s.begin).regs = s.regs := rfl
@[simp] theorem State.begin_pc : (s.begin).pc = s.pc := rfl
@[simp] theorem State.begin_codeSize : (s.begin).codeSize = s.codeSize := rfl
@[simp] theorem State.begin_lpc : (s.begin).lpc = s.lpc := rfl
@[simp] theorem State.begin_ir : (s.begin).ir = s.ir := rfl
@[simp] theorem State.begin_run : (s.begin).run = .running := rfl
@[simp] theorem State.begin_waiting : (s.begin).waiting = s.waiting := rfl
@[simp] theorem State.begin_fault : (s.begin).fault = s.fault := rfl
@[simp] theorem State.begin_mem : (s.begin).mem = s.mem := rfl
@[simp] theorem State.begin_out : (s.begin).out = s.out := rfl
@[simp] theorem State.begin_input : (s.begin).input = s.input := rfl
@[simp] theorem State.begin_abortIn : (s.begin).abortIn = s.abortIn := rfl

@[simp] theorem State.emit_regs (v : Int) : (s.emit v).regs = s.regs := rfl
@[simp] theorem State.emit_pc (v : Int) : (s.emit v).pc = s.pc := rfl
@[simp] theorem State.emit_codeSize (v : Int) : (s.emit v).codeSize = s.codeSize := rfl
@[simp] theorem State.emit_lpc (v : Int) : (s.emit v).lpc = s.lpc := rfl
@[simp] theorem State.emit_ir (v : Int) : (s.emit v).ir = s.ir := rfl
@[simp] theorem State.emit_run (v : Int) : (s.emit v).run = s.run := rfl
@[simp] theorem State.emit_waiting (v : Int) : (s.emit v).waiting = s.waiting := rfl
@[simp] theorem State.emit_fault (v : Int) : (s.emit v).fault = s.fault := rfl
@[simp] theorem State.emit_mem (v : Int) : (s.emit v).mem = s.mem := rfl
@[simp] theorem State.emit_out (v : Int) : (s.emit v).out = s.out ++ [v] := rfl
@[simp] theorem State.emit_input (v : Int) : (s.emit v).input = s.input := rfl
@[simp] theorem State.emit_abortIn (v : Int) : (s.emit v).abortIn = s.abortIn := rfl

@[simp] theorem State.fail_regs (c : FailCause) (i : Option Instr) (t : Option Int) : (s.fail c i t).regs = s.regs := rfl
@[simp] theorem State.fail_pc (c : FailCause) (i : Option Instr) (t : Option Int) : (s.fail c i t).pc = s.pc := rfl
@[simp] theorem State.fail_codeSize (c : FailCause) (i : Option Instr) (t : Option Int) : (s.fail c i t).codeSize = s.codeSize := rfl
@[simp] theorem State.fail_lpc (c : FailCause) (i : Option Instr) (t : Option Int) : (s.fail c i t).lpc = s.lpc := rfl
@[simp] theorem State.fail_ir (c : FailCause) (i : Option Instr) (t : Option Int) : (s.fail c i t).ir = s.ir := rfl
@[simp] theorem State.fail_run (c : FailCause) (i : Option Instr) (t : Option Int) : (s.fail c i t).run = .failed := rfl
@[simp] theorem State.fail_waiting (c : FailCause) (i : Option Instr) (t : Option Int) : (s.fail c i t).waiting = s.waiting := rfl
@[simp] theorem State.fail_fault (c : FailCause) (i : Option Instr) (t : Option Int) : (s.fail c i t).fault = some ⟨c, s.pc, s.lpc, s.ir, i.map Instr.mnemonic, (i.map Instr.args).getD [], t⟩ := rfl
@[simp] theorem State.fail_mem (c : FailCause) (i : Option Instr) (t : Option Int) : (s.fail c i t).mem = s.mem := rfl
@[simp] theorem State.fail_out (c : FailCause) (i : Option Instr) (t : Option Int) : (s.fail c i t).out = s.out := rfl
@[simp] theorem State.fail_input (c : FailCause) (i : Option Instr) (t : Option Int) : (s.fail c i t).input = s.input := rfl
@[simp] theorem State.fail_abortIn (c : FailCause) (i : Option Instr) (t : Option Int) : (s.fail c i t).abortIn = s.abortIn := rfl

@[simp] theorem State.hostAborts_regs : (s.hostAborts).regs = s.regs := rfl
@[simp] theorem State.hostAborts_pc : (s.hostAborts).pc = s.pc := rfl
@[simp] theorem State.hostAborts_codeSize : (s.hostAborts).codeSize = s.codeSize := rfl
@[simp] theorem State.hostAborts_lpc : (s.hostAborts).lpc = s.lpc := rfl
@[simp] theorem State.hostAborts_ir : (s.hostAborts).ir = s.ir := rfl
@[simp] theorem State.hostAborts_run : (s.hostAborts).run = .aborted := rfl
@[simp] theorem State.hostAborts_waiting : (s.hostAborts).waiting = false := rfl
@[simp] theorem State.hostAborts_fault : (s.hostAborts).fault = s.fault := rfl
@[simp] theorem State.hostAborts_mem : (s.hostAborts).mem = s.mem := rfl
@[simp] theorem State.hostAborts_out : (s.hostAborts).out = s.out := rfl
@[simp] theorem State.hostAborts_input : (s.hostAborts).input = s.input := rfl
@[simp] theorem State.hostAborts_abortIn : (s.hostAborts).abortIn = s.abortIn := rfl

@[simp] theorem State.block_regs : (s.block).regs = s.regs := rfl
@[simp] theorem State.block_pc : (s.block).pc = s.pc := rfl
@[simp] theorem State.block_codeSize : (s.block).codeSize = s.codeSize := rfl
@[simp] theorem State.block_lpc : (s.block).lpc = s.lpc := rfl
@[simp] theorem State.block_ir : (s.block).ir = s.ir := rfl
@[simp] theorem State.block_run : (s.block).run = s.run := rfl
@[simp] theorem State.block_waiting : (s.block).waiting = true := rfl
@[simp] theorem State.block_fault : (s.block).fault = s.fault := rfl
@[simp] theorem State.block_mem : (s.block).mem = s.mem := rfl
@[simp] theorem State.block_out : (s.block).out = s.out := rfl
@[simp] theorem State.block_input : (s.block).input = [] := rfl
@[simp] theorem State.block_abortIn : (s.block).abortIn = s.abortIn := rfl

@[simp] theorem State.unblock_regs (rest : List HostAnswer) : (s.unblock rest).regs = s.regs := rfl
@[simp] theorem State.unblock_pc (rest : List HostAnswer) : (s.unblock rest).pc = s.pc := rfl
@[simp] theorem State.unblock_codeSize (rest : List HostAnswer) : (s.unblock rest).codeSize = s.codeSize := rfl
@[simp] theorem State.unblock_lpc (rest : List HostAnswer) : (s.unblock rest).lpc = s.lpc := rfl
@[simp] theorem State.unblock_ir (rest : List HostAnswer) : (s.unblock rest).ir = s.ir := rfl
@[simp] theorem State.unblock_run (rest : List HostAnswer) : (s.unblock rest).run = s.run := rfl
@[simp] theorem State.unblock_waiting (rest : List HostAnswer) : (s.unblock rest).waiting = false := rfl
@[simp] theorem State.unblock_fault (rest : List HostAnswer) : (s.unblock rest).fault = s.fault := rfl
@[simp] theorem State.unblock_mem (rest : List HostAnswer) : (s.unblock rest).mem = s.mem := rfl
@[simp] theorem State.unblock_out (rest : List HostAnswer) : (s.unblock rest).out = s.out := rfl
@[simp] theorem State.unblock_input (rest : List HostAnswer) : (s.unblock rest).input = rest := rfl
@[simp] theorem State.unblock_abortIn (rest : List HostAnswer) : (s.unblock rest).abortIn = s.abortIn := rfl

@[simp] theorem State.quit_regs (rest : List HostAnswer) : (s.quit rest).regs = s.regs := rfl
@[simp] theorem State.quit_pc (rest : List HostAnswer) : (s.quit rest).pc = s.pc := rfl
@[simp] theorem State.quit_codeSize (rest : List HostAnswer) : (s.quit rest).codeSize = s.codeSize := rfl
@[simp] theorem State.quit_lpc (rest : List HostAnswer) : (s.quit rest).lpc = s.lpc := rfl
@[simp] theorem State.quit_ir (rest : List HostAnswer) : (s.quit rest).ir = s.ir := rfl
@[simp] theorem State.quit_run (rest : List HostAnswer) : (s.quit rest).run = .aborted := rfl
@[simp] theorem State.quit_waiting (rest : List HostAnswer) : (s.quit rest).waiting = false := rfl
@[simp] theorem State.quit_fault (rest : List HostAnswer) : (s.quit rest).fault = s.fault := rfl
@[simp] theorem State.quit_mem (rest : List HostAnswer) : (s.quit rest).mem = s.mem := rfl
@[simp] theorem State.quit_out (rest : List HostAnswer) : (s.quit rest).out = s.out := rfl
@[simp] theorem State.quit_input (rest : List HostAnswer) : (s.quit rest).input = rest := rfl
@[simp] theorem State.quit_abortIn (rest : List HostAnswer) : (s.quit rest).abortIn = s.abortIn := rfl

@[simp] theorem State.hostSupply_regs (a : HostAnswer) : (s.hostSupply a).regs = s.regs := rfl
@[simp] theorem State.hostSupply_pc (a : HostAnswer) : (s.hostSupply a).pc = s.pc := rfl
@[simp] theorem State.hostSupply_codeSize (a : HostAnswer) : (s.hostSupply a).codeSize = s.codeSize := rfl
@[simp] theorem State.hostSupply_lpc (a : HostAnswer) : (s.hostSupply a).lpc = s.lpc := rfl
@[simp] theorem State.hostSupply_ir (a : HostAnswer) : (s.hostSupply a).ir = s.ir := rfl
@[simp] theorem State.hostSupply_run (a : HostAnswer) : (s.hostSupply a).run = s.run := rfl
@[simp] theorem State.hostSupply_waiting (a : HostAnswer) : (s.hostSupply a).waiting = s.waiting := rfl
@[simp] theorem State.hostSupply_fault (a : HostAnswer) : (s.hostSupply a).fault = s.fault := rfl
@[simp] theorem State.hostSupply_mem (a : HostAnswer) : (s.hostSupply a).mem = s.mem := rfl
@[simp] theorem State.hostSupply_out (a : HostAnswer) : (s.hostSupply a).out = s.out := rfl
@[simp] theorem State.hostSupply_input (a : HostAnswer) : (s.hostSupply a).input = s.input ++ [a] := rfl
@[simp] theorem State.hostSupply_abortIn (a : HostAnswer) : (s.hostSupply a).abortIn = s.abortIn := rfl

@[simp] theorem State.hostAbortAfter_regs (n : Nat) : (s.hostAbortAfter n).regs = s.regs := rfl
@[simp] theorem State.hostAbortAfter_pc (n : Nat) : (s.hostAbortAfter n).pc = s.pc := rfl
@[simp] theorem State.hostAbortAfter_codeSize (n : Nat) : (s.hostAbortAfter n).codeSize = s.codeSize := rfl
@[simp] theorem State.hostAbortAfter_lpc (n : Nat) : (s.hostAbortAfter n).lpc = s.lpc := rfl
@[simp] theorem State.hostAbortAfter_ir (n : Nat) : (s.hostAbortAfter n).ir = s.ir := rfl
@[simp] theorem State.hostAbortAfter_run (n : Nat) : (s.hostAbortAfter n).run = s.run := rfl
@[simp] theorem State.hostAbortAfter_waiting (n : Nat) : (s.hostAbortAfter n).waiting = s.waiting := rfl
@[simp] theorem State.hostAbortAfter_fault (n : Nat) : (s.hostAbortAfter n).fault = s.fault := rfl
@[simp] theorem State.hostAbortAfter_mem (n : Nat) : (s.hostAbortAfter n).mem = s.mem := rfl
@[simp] theorem State.hostAbortAfter_out (n : Nat) : (s.hostAbortAfter n).out = s.out := rfl
@[simp] theorem State.hostAbortAfter_input (n : Nat) : (s.hostAbortAfter n).input = s.input := rfl
@[simp] theorem State.hostAbortAfter_abortIn (n : Nat) : (s.hostAbortAfter n).abortIn = some n := rfl

@[simp] theorem State.countDown_regs : (s.countDown).regs = s.regs := rfl
@[simp] theorem State.countDown_pc : (s.countDown).pc = s.pc := rfl
@[simp] theorem State.countDown_codeSize : (s.countDown).codeSize = s.codeSize := rfl
@[simp] theorem State.countDown_lpc : (s.countDown).lpc = s.lpc := rfl
@[simp] theorem State.countDown_ir : (s.countDown).ir = s.ir := rfl
@[simp] theorem State.countDown_run : (s.countDown).run = s.run := rfl
@[simp] theorem State.countDown_waiting : (s.countDown).waiting = s.waiting := rfl
@[simp] theorem State.countDown_fault : (s.countDown).fault = s.fault := rfl
@[simp] theorem State.countDown_mem : (s.countDown).mem = s.mem := rfl
@[simp] theorem State.countDown_out : (s.countDown).out = s.out := rfl
@[simp] theorem State.countDown_input : (s.countDown).input = s.input := rfl
@[simp] theorem State.countDown_abortIn : (s.countDown).abortIn = s.abortIn.map (· - 1) := rfl

@[simp] theorem State.fetched_regs (n : Nat) : (s.fetched n).regs = s.regs := rfl
@[simp] theorem State.fetched_pc (n : Nat) : (s.fetched n).pc = .addr (n + 1) := rfl
@[simp] theorem State.fetched_codeSize (n : Nat) : (s.fetched n).codeSize = s.codeSize := rfl
@[simp] theorem State.fetched_lpc (n : Nat) : (s.fetched n).lpc = some n := rfl
@[simp] theorem State.fetched_ir (n : Nat) : (s.fetched n).ir = some (s.wordAt n) := rfl
@[simp] theorem State.fetched_run (n : Nat) : (s.fetched n).run = s.run := rfl
@[simp] theorem State.fetched_waiting (n : Nat) : (s.fetched n).waiting = s.waiting := rfl
@[simp] theorem State.fetched_fault (n : Nat) : (s.fetched n).fault = s.fault := rfl
@[simp] theorem State.fetched_mem (n : Nat) : (s.fetched n).mem = s.mem := rfl
@[simp] theorem State.fetched_out (n : Nat) : (s.fetched n).out = s.out := rfl
@[simp] theorem State.fetched_input (n : Nat) : (s.fetched n).input = s.input := rfl
@[simp] theorem State.fetched_abortIn (n : Nat) : (s.fetched n).abortIn = s.abortIn := rfl

@[simp] theorem State.setReg_pc (x : Reg) (v : Int) : (s.setReg x v).pc = s.pc := by
  unfold State.setReg; split <;> rfl
@[simp] theorem State.setReg_codeSize (x : Reg) (v : Int) : (s.setReg x v).codeSize = s.codeSize := by
  unfold State.setReg; split <;> rfl
@[simp] theorem State.setReg_lpc (x : Reg) (v : Int) : (s.setReg x v).lpc = s.lpc := by
  unfold State.setReg; split <;> rfl
@[simp] theorem State.setReg_ir (x : Reg) (v : Int) : (s.setReg x v).ir = s.ir := by
  unfold State.setReg; split <;> rfl
@[simp] theorem State.setReg_run (x : Reg) (v : Int) : (s.setReg x v).run = s.run := by
  unfold State.setReg; split <;> rfl
@[simp] theorem State.setReg_waiting (x : Reg) (v : Int) : (s.setReg x v).waiting = s.waiting := by
  unfold State.setReg; split <;> rfl
@[simp] theorem State.setReg_fault (x : Reg) (v : Int) : (s.setReg x v).fault = s.fault := by
  unfold State.setReg; split <;> rfl
@[simp] theorem State.setReg_mem (x : Reg) (v : Int) : (s.setReg x v).mem = s.mem := by
  unfold State.setReg; split <;> rfl
@[simp] theorem State.setReg_out (x : Reg) (v : Int) : (s.setReg x v).out = s.out := by
  unfold State.setReg; split <;> rfl
@[simp] theorem State.setReg_input (x : Reg) (v : Int) : (s.setReg x v).input = s.input := by
  unfold State.setReg; split <;> rfl
@[simp] theorem State.setReg_abortIn (x : Reg) (v : Int) : (s.setReg x v).abortIn = s.abortIn := by
  unfold State.setReg; split <;> rfl

/-- What a register write stores: register 0 keeps its place, any other takes the value. -/
theorem State.setReg_regs (x : Reg) (v : Int) :
    (s.setReg x v).regs = if x = 0 then s.regs else s.regs.set x.val v := by
  unfold State.setReg; split <;> rfl

@[simp] theorem State.setReg_zero (v : Int) : s.setReg 0 v = s := rfl

@[simp] theorem State.reg_zero : s.reg 0 = 0 := rfl

/-- Reading any other register gives what is stored. -/
theorem State.reg_of_ne {x : Reg} (h : x ≠ 0) : s.reg x = s.regs[x.val] := if_neg h

/-- Reading a register after a write. -/
theorem State.reg_setReg (x y : Reg) (v : Int) :
    (s.setReg x v).reg y = if y = x ∧ x ≠ 0 then v else s.reg y := by
  by_cases hx : x = 0
  · simp [hx]
  · by_cases hy : y = 0
    · simp [hy, State.reg, Ne.symm hx]
    · simp [State.reg, State.setReg, hx, hy, Vector.getElem_set, Fin.ext_iff, eq_comm]

/-- A register write changes the registers and nothing else. -/
theorem State.setReg_frame (x : Reg) (v : Int) : s.setReg x v = { s with regs := (s.setReg x v).regs } := by
  unfold State.setReg; split <;> rfl

@[simp] theorem State.reg_memWrite (a : Nat) (v : Int) (x : Reg) : (s.memWrite a v).reg x = s.reg x := rfl
@[simp] theorem State.reg_setPc (t : Nat) (x : Reg) : (s.setPc t).reg x = s.reg x := rfl
@[simp] theorem State.wordAt_setReg (x : Reg) (v : Int) (a : Nat) : (s.setReg x v).wordAt a = s.wordAt a := by
  simp [State.wordAt]
@[simp] theorem State.wordAt_setPc (t : Nat) (a : Nat) : (s.setPc t).wordAt a = s.wordAt a := rfl

/-- Forcing register 0 leaves every register as it is read. -/
@[simp] theorem State.reg_forceR0 (x : Reg) : s.forceR0.reg x = s.reg x := by
  by_cases h : x = 0
  · simp [h]
  · have : (0 : Nat) ≠ x.val := fun e => h (Fin.ext e.symm)
    simp [State.reg, h, State.forceR0, this]

/-- Forcing register 0 where it is 0 changes nothing. -/
theorem State.forceR0_of_zero (h : s.regs[0] = 0) : s.forceR0 = s := by
  have : s.regs.set 0 0 = s.regs := by
    ext i hi
    by_cases h0 : 0 = i <;> simp_all
  unfold State.forceR0; rw [this]

end Sys2Proof.Machine
end

