-- ==== Sys2Proof/Laws/Memory.lean ====
section
/-! SUPPORT. Memory: read after write, and that every operation keeps the canonical form. -/

namespace Sys2Proof.Machine

/-- Read after write: the written address gives the new word, every other address what it gave before. -/
theorem lookupCell_insertCell (m : Memory) (a b : Nat) (w : Word) :
    lookupCell (insertCell m a w) b = if a = b then some w else lookupCell m b := by
  induction m with
  | nil => simp [insertCell, lookupCell]
  | cons c rest ih =>
    unfold insertCell
    split
    · simp [lookupCell]
    · split
      · rename_i hca
        subst hca
        by_cases hb : c.1 = b <;> simp [lookupCell, hb]
      · rename_i hca
        by_cases hb : c.1 = b
        · have : a ≠ b := fun e => hca (hb.trans e.symm)
          simp [lookupCell, hb, this]
        · simp [lookupCell, hb, ih]

/-- The word read at an address after a write. -/
theorem State.wordAt_memWrite (s : State) (a b : Nat) (v : Int) :
    (s.memWrite a v).wordAt b = if a = b then int16 v else s.wordAt b := by
  by_cases h : a = b <;> simp [State.wordAt, lookupCell_insertCell, h]

/-- No cell lies below where the addresses rise from. -/
theorem lookupCell_below (m : Memory) (lo a : Nat) (h : Memory.risesFrom lo m = true) (ha : a < lo) :
    lookupCell m a = none := by
  induction m generalizing lo with
  | nil => rfl
  | cons c rest ih =>
    simp only [Memory.risesFrom, Bool.and_eq_true, decide_eq_true_eq] at h
    have : c.1 ≠ a := by omega
    simp [lookupCell, this, ih _ h.2 (by omega)]

theorem insertCell_risesFrom (m : Memory) (lo a : Nat) (w : Word) (h : Memory.risesFrom lo m = true) (ha : lo ≤ a)
    (h256 : a < 256) : Memory.risesFrom lo (insertCell m a w) = true := by
  induction m generalizing lo with
  | nil => simp [insertCell, Memory.risesFrom, ha, h256]
  | cons c rest ih =>
    simp only [Memory.risesFrom, Bool.and_eq_true, decide_eq_true_eq] at h
    unfold insertCell
    split
    · simp only [Memory.risesFrom, Bool.and_eq_true, decide_eq_true_eq]
      exact ⟨⟨ha, h256⟩, ⟨by omega, h.1.2⟩, h.2⟩
    · split
      · rename_i hca
        simp only [Memory.risesFrom, Bool.and_eq_true, decide_eq_true_eq]
        exact ⟨⟨ha, h256⟩, hca ▸ h.2⟩
      · simp only [Memory.risesFrom, Bool.and_eq_true, decide_eq_true_eq]
        exact ⟨h.1, ih _ h.2 (by omega)⟩

/-- A write inside the address space keeps the canonical form. -/
theorem insertCell_wf (m : Memory) (a : Nat) (w : Word) (h : m.wf = true) (ha : a < 256) :
    Memory.wf (insertCell m a w) = true := insertCell_risesFrom m 0 a w h (Nat.zero_le a) ha

theorem imageCells_risesFrom (words : List Word) (a : Nat) (h : a + words.length ≤ 256) :
    Memory.risesFrom a (imageCells a words) = true := by
  induction words generalizing a with
  | nil => rfl
  | cons w rest ih =>
    simp only [List.length_cons] at h
    simp only [imageCells, Memory.risesFrom, Bool.and_eq_true, decide_eq_true_eq]
    exact ⟨⟨le_refl a, by omega⟩, ih (a + 1) (by omega)⟩

/-- A loaded image lists its words in canonical form. -/
theorem load_mem_wf (words : List Word) (h : words.length ≤ 256) : (State.load words).mem.wf = true :=
  imageCells_risesFrom words 0 (by omega)

theorem reset_mem_wf : State.reset.mem.wf = true := rfl

/-- The memory after a write inside the address space is canonical. -/
theorem State.memWrite_wf (s : State) (a : Nat) (v : Int) (h : s.mem.wf = true) (ha : a < 256) :
    (s.memWrite a v).mem.wf = true := insertCell_wf s.mem a (int16 v) h ha

/-- Placing a word for the next fetch keeps the canonical form. -/
theorem State.placeWord_wf (s : State) (w : Word) (h : s.mem.wf = true) : (s.placeWord w).mem.wf = true := by
  refine insertCell_wf s.mem s.placeAddress w h ?_
  unfold State.placeAddress
  split
  · split <;> omega
  · omega

/-- Writing at one address never takes another word away. -/
theorem lookupCell_insertCell_isSome (m : Memory) (a b : Nat) (w : Word) (h : (lookupCell m b).isSome = true) :
    (lookupCell (insertCell m a w) b).isSome = true := by
  induction m with
  | nil => simp [lookupCell] at h
  | cons c rest ih =>
    unfold insertCell
    split
    · by_cases hb : a = b
      · simp [lookupCell, hb]
      · simpa [lookupCell, hb] using h
    · split
      · rename_i hca
        by_cases hb : c.1 = b <;> simp_all [lookupCell]
      · by_cases hb : c.1 = b <;> simp_all [lookupCell]

/-- The range in which `int16` and `sval` are inverse. -/
theorem sval_int16 (v : Int) (h : -32768 ≤ v ∧ v ≤ 32767) : sval (int16 v) = v := by
  unfold sval int16
  rw [BitVec.toInt_ofInt]
  simp only [Int.bmod_def]
  omega

theorem sval_inRange (w : Word) : InRange (sval w) := by
  have h1 := BitVec.toInt_lt (x := w)
  have h2 := BitVec.le_toInt (x := w)
  simp only [InRange, sval]
  omega

theorem sext8_range (n : Imm8) : -128 ≤ sext8 n ∧ sext8 n ≤ 127 := by
  have h1 := BitVec.toInt_lt (x := n)
  have h2 := BitVec.le_toInt (x := n)
  simp only [sext8]
  omega

theorem zext8_range (n : Imm8) : 0 ≤ zext8 n ∧ zext8 n ≤ 255 := by
  have h := n.isLt
  simp only [zext8]
  omega

end Sys2Proof.Machine
end

