-- ==== Sys2Proof/Laws/Ops.lean ====
section
/-! SUPPORT. One lemma per shared operation that says once everything it can do. -/

namespace Sys2Proof.Machine

variable {i : Instr} {s t : State}

theorem writeChecked_of_inRange {x : Reg} {r : Int} (h : InRange r) : writeChecked i x r s = .next (s.setReg x r) :=
  if_pos h

theorem writeChecked_of_not_inRange {x : Reg} {r : Int} (h : ¬ InRange r) :
    writeChecked i x r s = .next (s.fail .arithmeticOverflow (some i) (some r)) := if_neg h

theorem writeChecked_cases {x : Reg} {r : Int} (h : writeChecked i x r s = .next t) :
    (InRange r ∧ t = s.setReg x r) ∨ (¬ InRange r ∧ t = s.fail .arithmeticOverflow (some i) (some r)) := by
  by_cases hr : InRange r
  · rw [writeChecked_of_inRange hr] at h; cases h; exact .inl ⟨hr, rfl⟩
  · rw [writeChecked_of_not_inRange hr] at h; cases h; exact .inr ⟨hr, rfl⟩

/-- The quotient's write under the policy the model takes. -/
theorem writeQuotient_cases {x : Reg} {q : Int} (h : writeQuotient divOvfPolicy i x q s = .next t) :
    (q ≠ 32768 ∧ t = s.setReg x q) ∨ (q = 32768 ∧ t = s.fail .arithmeticOverflow (some i) (some q)) := by
  unfold writeQuotient divOvfPolicy at h
  split at h <;> cases h <;> simp_all

theorem loadFrom_of_inData {x : Reg} {a : Int} (h : s.InData a) :
    loadFrom i x a s = .next (s.setReg x (s.memRead a.toNat)) := if_pos h

theorem loadFrom_of_not_inData {x : Reg} {a : Int} (h : ¬ s.InData a) :
    loadFrom i x a s = .next (s.fail .loadOutOfBounds (some i) (some a)) := if_neg h

theorem storeTo_of_inData {x : Reg} {a : Int} (h : s.InData a) :
    storeTo i x a s = .next (s.memWrite a.toNat (s.reg x)) := if_pos h

theorem storeTo_of_not_inData {x : Reg} {a : Int} (h : ¬ s.InData a) :
    storeTo i x a s = .next (s.fail .storeOutOfBounds (some i) (some a)) := if_neg h

theorem checkTarget_of_inCode {a : Int} {after : State} (h : s.InCode a) : checkTarget i a s after = .next after :=
  if_pos h

theorem checkTarget_of_not_inCode {a : Int} {after : State} (h : ¬ s.InCode a) :
    checkTarget i a s after = .next (s.fail .jumpOutOfBounds (some i) (some a)) := if_neg h

/-- Values out of range are passed over. -/
theorem takeAnswer_bad_append (bad rest : List HostAnswer)
    (h : AllTurnedAway bad) : takeAnswer (bad ++ rest) = takeAnswer rest := by
  induction bad with
  | nil => rfl
  | cons a bad ih =>
    obtain ⟨v, rfl, hv⟩ := h a (by simp)
    rw [List.cons_append, takeAnswer, if_neg hv]
    exact ih fun b hb => h b (by simp [hb])

/-- No answer is taken exactly when every answer offered is turned away. -/
theorem takeAnswer_eq_none {input : List HostAnswer} : takeAnswer input = none ↔ AllTurnedAway input := by
  constructor
  · intro h
    induction input with
    | nil => exact List.forall_mem_nil _
    | cons a input ih =>
      cases a with
      | abort => cases h
      | value v =>
        unfold takeAnswer at h
        split at h
        · cases h
        · rename_i hv
          exact List.forall_mem_cons.2 ⟨⟨v, rfl, hv⟩, ih h⟩
  · intro h
    have := takeAnswer_bad_append input [] h
    rwa [List.append_nil] at this

/-- The answer taken is the first one not turned away, and the answers after it are left. -/
theorem takeAnswer_eq_some {input rest : List HostAnswer} {a : HostAnswer} (h : takeAnswer input = some (a, rest)) :
    ∃ bad, AllTurnedAway bad ∧ input = bad ++ a :: rest := by
  induction input with
  | nil => cases h
  | cons b input ih =>
    cases b with
    | abort => cases h; exact ⟨[], List.forall_mem_nil _, rfl⟩
    | value v =>
      unfold takeAnswer at h
      split at h
      · cases h; exact ⟨[], List.forall_mem_nil _, rfl⟩
      · rename_i hv
        obtain ⟨bad, hb, rfl⟩ := ih h
        exact ⟨.value v :: bad, List.forall_mem_cons.2 ⟨⟨v, rfl, hv⟩, hb⟩, rfl⟩

/-- A value that is taken is in range. -/
theorem takeAnswer_inRange {input rest : List HostAnswer} {v : Int} (h : takeAnswer input = some (.value v, rest)) :
    InRange v := by
  induction input with
  | nil => cases h
  | cons a input ih =>
    cases a with
    | abort => cases h
    | value w =>
      unfold takeAnswer at h
      split at h
      · rename_i hw
        cases h
        exact hw
      · exact ih h

/-- The floor remainder lies between 0 and the divisor, on the divisor's side. -/
theorem fmod_bounds (a b : Int) :
    (0 < b → 0 ≤ Int.fmod a b ∧ Int.fmod a b < b) ∧ (b < 0 → b < Int.fmod a b ∧ Int.fmod a b ≤ 0) := by
  refine ⟨fun h => ⟨Int.fmod_nonneg_of_pos a h, Int.fmod_lt_of_pos a h⟩, fun h => ?_⟩
  have e := Int.neg_fmod_neg a b
  have h1 := Int.fmod_nonneg_of_pos (-a) (Int.neg_pos_of_neg h)
  have h2 := Int.fmod_lt_of_pos (-a) (Int.neg_pos_of_neg h)
  omega

/-- The floor quotient of values in range is in range, but for -32768 div -1. -/
theorem fdiv_inRange {a b : Int} (ha : InRange a) (hb : b ≠ 0) (h : Int.fdiv a b ≠ 32768) : InRange (Int.fdiv a b) := by
  have hab := Int.mul_fdiv_add_fmod a b
  rcases lt_or_gt_of_ne hb with hneg | hpos
  · have h1 := (fmod_bounds a b).2 hneg
    constructor <;> by_contra hc
    · nlinarith [ha.2]
    · have hq : 32769 ≤ Int.fdiv a b := by omega
      nlinarith [ha.1]
  · have h1 := (fmod_bounds a b).1 hpos
    constructor <;> by_contra hc <;> nlinarith [ha.1, ha.2]

theorem State.reg_inRange {s : State} (h : s.RegsInRange) (x : Reg) : InRange (s.reg x) := by
  by_cases hx : x = 0
  · subst hx; rw [State.reg_zero]; decide
  · rw [State.reg_of_ne s hx]; exact h x.val x.isLt

/-- What a meaning can do to the state it runs on. -/
inductive Effect (i : Instr) (s : State) : State → Prop where
  | register (x : Reg) (v : Int) (h : s.RegsInRange → InRange v) : Effect i s (s.setReg x v)
  | memory (a : Int) (v : Int) (h : s.InData a) : Effect i s (s.memWrite a.toNat v)
  | unchanged : Effect i s s
  | jump (a : Int) (h : s.InCode a) : Effect i s (s.setPc a.toNat)
  | link (x : Reg) (a : Int) (h : s.InCode a) : Effect i s ((s.setReg x s.pcIndex).setPc a.toNat)
  | output (x : Reg) : Effect i s (s.emit (s.reg x))
  | halt (h : i = .halt) : Effect i s s.stop
  | failure (c : FailCause) (a : Option Int) (hi : ∀ x, i ≠ .read x) : Effect i s (s.fail c (some i) a)
  | blocked (x : Reg) (h : i = .read x) : Effect i s s.block
  | answered (x : Reg) (v : Int) (rest : List HostAnswer) (hi : i = .read x) (h : InRange v) :
      Effect i s ((s.unblock rest).setReg x v)
  | aborted (x : Reg) (rest : List HostAnswer) (hi : i = .read x) : Effect i s (s.quit rest)

theorem writeChecked_effect {x : Reg} {r : Int} (hi : ∀ x, i ≠ .read x) (h : writeChecked i x r s = .next t) : Effect i s t := by
  obtain ⟨hr, rfl⟩ | ⟨-, rfl⟩ := writeChecked_cases h
  · exact .register x r fun _ => hr
  · exact .failure _ _ hi

theorem loadFrom_effect {x : Reg} {a : Int} (hi : ∀ x, i ≠ .read x) (h : loadFrom i x a s = .next t) : Effect i s t := by
  by_cases ha : s.InData a
  · rw [loadFrom_of_inData ha] at h
    cases h
    exact .register x _ fun _ => sval_inRange _
  · rw [loadFrom_of_not_inData ha] at h
    cases h
    exact .failure _ _ hi

theorem storeTo_effect {x : Reg} {a : Int} (hi : ∀ x, i ≠ .read x) (h : storeTo i x a s = .next t) : Effect i s t := by
  by_cases ha : s.InData a
  · rw [storeTo_of_inData ha] at h
    cases h
    exact .memory a _ ha
  · rw [storeTo_of_not_inData ha] at h
    cases h
    exact .failure _ _ hi

theorem checkTarget_effect {a : Int} {after : State} (hi : ∀ x, i ≠ .read x) (h : checkTarget i a s after = .next t)
    (ok : s.InCode a → Effect i s after) : Effect i s t := by
  by_cases ha : s.InCode a
  · rw [checkTarget_of_inCode ha] at h
    cases h
    exact ok ha
  · rw [checkTarget_of_not_inCode ha] at h
    cases h
    exact .failure _ _ hi

theorem branchIf_effect {c : Condition} {x : Reg} {n : Imm8} (hi : ∀ x, i ≠ .read x) (h : branchIf i c x n s = .next t) : Effect i s t := by
  refine checkTarget_effect hi h fun ha => ?_
  split
  · exact .jump _ ha
  · exact .unchanged

/-- Everything a meaning can do: one of the effects, whatever the instruction. -/
theorem exec_effect (h : exec i s = .next t) : Effect i s t := by
  cases i with
  | halt => cases h; exact .halt rfl
  | read x =>
    simp only [exec, execRead] at h
    split at h
    · cases h; exact .blocked x rfl
    · cases h; exact .aborted x _ rfl
    · rename_i hv
      cases h
      exact .answered x _ _ rfl (takeAnswer_inRange hv)
  | write x => cases h; exact .output x
  | jumpi x => exact checkTarget_effect (by simp) h fun ha => .jump _ ha
  | loadn x n =>
    cases h
    exact .register x _ fun _ => by have := sext8_range n; constructor <;> omega
  | load x n => exact loadFrom_effect (by simp) h
  | store x n => exact storeTo_effect (by simp) h
  | loadi x y => exact loadFrom_effect (by simp) h
  | storei x y => exact storeTo_effect (by simp) h
  | addn x n => exact writeChecked_effect (by simp) h
  | nop => exact writeChecked_effect (by simp) (x := 0) (r := s.reg 0 + s.reg 0) h
  | mov x y => exact writeChecked_effect (by simp) h
  | add x y z => exact writeChecked_effect (by simp) h
  | neg x z => exact writeChecked_effect (by simp) h
  | sub x y z => exact writeChecked_effect (by simp) h
  | mul x y z => exact writeChecked_effect (by simp) h
  | div x y z =>
    simp only [exec, execDiv, failDivideByZero] at h
    split at h
    · cases h; exact .failure _ _ (by simp)
    · rename_i hz
      obtain ⟨hq, rfl⟩ | ⟨-, rfl⟩ := writeQuotient_cases h
      · exact .register x _ fun hr => fdiv_inRange (State.reg_inRange hr y) hz hq
      · exact .failure _ _ (by simp)
  | mod x y z =>
    simp only [exec, execMod, failDivideByZero] at h
    split at h
    · cases h; exact .failure _ _ (by simp)
    · rename_i hz
      cases h
      refine .register x _ fun hr => ?_
      have hb := State.reg_inRange hr z
      have hab := Int.mul_fdiv_add_fmod (s.reg y) (s.reg z)
      have hm := fmod_bounds (s.reg y) (s.reg z)
      constructor <;> omega
  | jump n => exact checkTarget_effect (by simp) h fun ha => .jump _ ha
  | call x n => exact checkTarget_effect (by simp) h fun ha => .link x _ ha
  | jeqz x n => exact branchIf_effect (by simp) h
  | jnez x n => exact branchIf_effect (by simp) h
  | jgtz x n => exact branchIf_effect (by simp) h
  | jltz x n => exact branchIf_effect (by simp) h
  | data w => cases h; exact .failure _ _ (by simp)

end Sys2Proof.Machine
end

