-- ==== Sys2Proof/Laws/PerInstr.lean ====
section
/-! SUPPORT. Facts about every instruction as syntax, one lemma per constructor: the word of an instruction matches the
entry of its own mnemonic. -/

namespace Sys2Proof.Laws

/-- Fields that stay off the masked bits leave the entry's fixed bits as they are. -/
theorem hits_of_fields (e : OpcodeRow) (v : Word) (h1 : e.value &&& e.mask = e.value) (h2 : v &&& e.mask = 0) :
    e.hits (e.value ||| v) = true := by
  have : (e.value ||| v) &&& e.mask = e.value := by
    ext k hk
    have a := congrArg (fun w : Word => w.getLsbD k) h1
    have b := congrArg (fun w : Word => w.getLsbD k) h2
    simp at a b ⊢
    cases hm : e.mask[k] <;> simp_all
  simp [OpcodeRow.hits, this]

/-- Nothing below the opcode nibble touches it. -/
theorem fields_below_nibble (v : Word) : (v >>> 4) &&& 0xF000 = 0 := by
  ext k hk
  interval_cases k <;> simp

/-- One register in the place of X. -/
theorem fields_one_reg (v : Word) : ((v <<< 12) >>> 4) &&& 0xF0FF = 0 := by
  ext k hk
  interval_cases k <;> simp

/-- Two registers in the places of X and Y. -/
theorem fields_two_regs (v w : Word) : ((v <<< 12 ||| (w <<< 12) >>> 4) >>> 4) &&& 0xF00F = 0 := by
  ext k hk
  interval_cases k <;> simp

/-- Two registers in the places of X and Z. -/
theorem fields_outer_regs (v w : Word) : ((v <<< 12 ||| (w <<< 12) >>> 4 >>> 4) >>> 4) &&& 0xF0F0 = 0 := by
  ext k hk
  interval_cases k <;> simp

/-- An 8-bit immediate behind a discarded nibble. -/
theorem fields_low_byte (n : Imm8) : ((n.setWidth 16 <<< 8) >>> 4 >>> 4) &&& (0xFF00 : Word) = 0 := by
  ext k hk
  interval_cases k <;> simp

/-- The word of an instruction matches the table entry of its own mnemonic (30_encoding.md R76, R80 to R104). -/
def EncodedWordMatchesItsRow.Statement (i : Instr) : Prop :=
  ∃ e ∈ opcodeTable, e.mnemonic = i.mnemonic ∧ e.hits (encode i) = true

namespace EncodedWordMatchesItsRow

/-- An entry whose mask is the opcode nibble matches whatever its fields are. -/
theorem of_nibble (i : Instr) (m : Mnemonic) (c : Word) (hi : i.mnemonic = m)
    (hm : (⟨c, 0xF000, m⟩ : OpcodeRow) ∈ opcodeTable) (hc : c &&& 0xF000 = c) (hs : argShape m ≠ [.n])
    (hb : opcodeBits m = c) : Statement i := by
  subst hi
  refine ⟨_, hm, rfl, ?_⟩
  rw [encode, if_neg hs, hb]
  exact hits_of_fields ⟨c, 0xF000, i.mnemonic⟩ _ hc (fields_below_nibble _)

theorem halt : Statement .halt := by unfold Statement; decide
theorem nop : Statement .nop := by unfold Statement; decide
theorem data (n : Word) : Statement (.data n) := ⟨⟨0, 0, .data⟩, by decide, rfl, by simp [OpcodeRow.hits]⟩

theorem read (x : Reg) : Statement (.read x) :=
  ⟨⟨0x0001, 0xF0FF, .read⟩, by decide, rfl, hits_of_fields ⟨0x0001, 0xF0FF, .read⟩ _ rfl
    (by simpa [putFields, argShape, Instr.mnemonic, Instr.fields] using fields_one_reg (BitVec.ofNat 16 x.val))⟩

theorem write (x : Reg) : Statement (.write x) :=
  ⟨⟨0x0002, 0xF0FF, .write⟩, by decide, rfl, hits_of_fields ⟨0x0002, 0xF0FF, .write⟩ _ rfl
    (by simpa [putFields, argShape, Instr.mnemonic, Instr.fields] using fields_one_reg (BitVec.ofNat 16 x.val))⟩

theorem jumpi (x : Reg) : Statement (.jumpi x) :=
  ⟨⟨0x0003, 0xF0FF, .jumpi⟩, by decide, rfl, hits_of_fields ⟨0x0003, 0xF0FF, .jumpi⟩ _ rfl
    (by simpa [putFields, argShape, Instr.mnemonic, Instr.fields] using fields_one_reg (BitVec.ofNat 16 x.val))⟩

theorem loadi (x y : Reg) : Statement (.loadi x y) :=
  ⟨⟨0x4000, 0xF00F, .loadi⟩, by decide, rfl, hits_of_fields ⟨0x4000, 0xF00F, .loadi⟩ _ rfl
    (by simpa [putFields, argShape, Instr.mnemonic, Instr.fields] using fields_two_regs (BitVec.ofNat 16 x.val) (BitVec.ofNat 16 y.val))⟩

theorem storei (x y : Reg) : Statement (.storei x y) :=
  ⟨⟨0x4001, 0xF00F, .storei⟩, by decide, rfl, hits_of_fields ⟨0x4001, 0xF00F, .storei⟩ _ rfl
    (by simpa [putFields, argShape, Instr.mnemonic, Instr.fields] using fields_two_regs (BitVec.ofNat 16 x.val) (BitVec.ofNat 16 y.val))⟩

theorem mov (x y : Reg) : Statement (.mov x y) :=
  ⟨⟨0x6000, 0xF00F, .mov⟩, by decide, rfl, hits_of_fields ⟨0x6000, 0xF00F, .mov⟩ _ rfl
    (by simpa [putFields, argShape, Instr.mnemonic, Instr.fields] using fields_two_regs (BitVec.ofNat 16 x.val) (BitVec.ofNat 16 y.val))⟩

theorem neg (x z : Reg) : Statement (.neg x z) :=
  ⟨⟨0x7000, 0xF0F0, .neg⟩, by decide, rfl, hits_of_fields ⟨0x7000, 0xF0F0, .neg⟩ _ rfl
    (by simpa [putFields, argShape, Instr.mnemonic, Instr.fields] using fields_outer_regs (BitVec.ofNat 16 x.val) (BitVec.ofNat 16 z.val))⟩

theorem jump (n : Imm8) : Statement (.jump n) :=
  ⟨⟨0xB000, 0xFF00, .jump⟩, by decide, rfl, hits_of_fields ⟨0xB000, 0xFF00, .jump⟩ _ rfl
    (by simpa [putFields, argShape, Instr.mnemonic, Instr.fields] using fields_low_byte n)⟩

theorem loadn (x : Reg) (n : Imm8) : Statement (.loadn x n) :=
  of_nibble _ .loadn 0x1000 rfl (by decide) (by decide) (by decide) (by decide)
theorem load (x : Reg) (n : Imm8) : Statement (.load x n) :=
  of_nibble _ .load 0x2000 rfl (by decide) (by decide) (by decide) (by decide)
theorem store (x : Reg) (n : Imm8) : Statement (.store x n) :=
  of_nibble _ .store 0x3000 rfl (by decide) (by decide) (by decide) (by decide)
theorem addn (x : Reg) (n : Imm8) : Statement (.addn x n) :=
  of_nibble _ .addn 0x5000 rfl (by decide) (by decide) (by decide) (by decide)
theorem add (x y z : Reg) : Statement (.add x y z) :=
  of_nibble _ .add 0x6000 rfl (by decide) (by decide) (by decide) (by decide)
theorem sub (x y z : Reg) : Statement (.sub x y z) :=
  of_nibble _ .sub 0x7000 rfl (by decide) (by decide) (by decide) (by decide)
theorem mul (x y z : Reg) : Statement (.mul x y z) :=
  of_nibble _ .mul 0x8000 rfl (by decide) (by decide) (by decide) (by decide)
theorem div (x y z : Reg) : Statement (.div x y z) :=
  of_nibble _ .div 0x9000 rfl (by decide) (by decide) (by decide) (by decide)
theorem mod (x y z : Reg) : Statement (.mod x y z) :=
  of_nibble _ .mod 0xA000 rfl (by decide) (by decide) (by decide) (by decide)
theorem call (x : Reg) (n : Imm8) : Statement (.call x n) :=
  of_nibble _ .call 0xB000 rfl (by decide) (by decide) (by decide) (by decide)
theorem jeqz (x : Reg) (n : Imm8) : Statement (.jeqz x n) :=
  of_nibble _ .jeqz 0xC000 rfl (by decide) (by decide) (by decide) (by decide)
theorem jnez (x : Reg) (n : Imm8) : Statement (.jnez x n) :=
  of_nibble _ .jnez 0xD000 rfl (by decide) (by decide) (by decide) (by decide)
theorem jgtz (x : Reg) (n : Imm8) : Statement (.jgtz x n) :=
  of_nibble _ .jgtz 0xE000 rfl (by decide) (by decide) (by decide) (by decide)
theorem jltz (x : Reg) (n : Imm8) : Statement (.jltz x n) :=
  of_nibble _ .jltz 0xF000 rfl (by decide) (by decide) (by decide) (by decide)

end EncodedWordMatchesItsRow

end Sys2Proof.Laws
end

