-- ==== Sys2Proof/Laws/Step.lean ====
section
/-! SUPPORT. What one step can do, said once. -/

namespace Sys2Proof.Machine

/-- The ways a step that answers a next state can have gone. -/
inductive StepCase (s : State) : State → Prop where
  | abort (h : s.AbortDue) : StepCase s s.hostAborts
  | outside (target : Option Int) (ha : s.abortIn ≠ some 0) (hw : s.waiting = false)
      (hp : (s.pc = .halt ∧ target = none) ∨ ∃ n : Nat, s.pc = .addr n ∧ s.codeSize ≤ n ∧ target = some (n : Int)) :
      StepCase s (s.countDown.begin.fail .pcOutOfBounds s.irInstr target)
  | dispatched (n : Nat) (i : Instr) (u : State) (ha : s.abortIn ≠ some 0) (hw : s.waiting = false)
      (hp : s.pc = .addr n) (hn : n < s.codeSize) (hd : decodeWord (s.wordAt n) = some i)
      (he : exec i (s.countDown.begin.fetched n).forceR0 = .next u) : StepCase s u.forceR0
  | undecodable (n : Nat) (ha : s.abortIn ≠ some 0) (hw : s.waiting = false) (hp : s.pc = .addr n)
      (hn : n < s.codeSize) (hd : decodeWord (s.wordAt n) = none) :
      StepCase s ((s.countDown.begin.fetched n).forceR0.fail .invalidOpcode none none).forceR0
  | resumed (x : Reg) (u : State) (ha : s.abortIn ≠ some 0) (hw : s.waiting = true)
      (ht : takeAnswer s.input ≠ none) (hi : s.irInstr = some (.read x)) (he : exec (.read x) s.countDown.forceR0 = .next u) : StepCase s u.forceR0

theorem afterDispatch_next {r : Result} {t : State} (h : afterDispatch r = .next t) :
    ∃ u, r = .next u ∧ t = u.forceR0 := by
  cases r with
  | next u => cases h; exact ⟨u, rfl, rfl⟩
  | fault f => cases h
  | refused f => cases h

@[simp] theorem State.wordAt_countDown (s : State) (a : Nat) : s.countDown.wordAt a = s.wordAt a := rfl
@[simp] theorem State.irInstr_countDown (s : State) : s.countDown.irInstr = s.irInstr := rfl

theorem cycle_cases {s t : State} (ha : s.abortIn ≠ some 0) (hw : s.waiting = false)
    (h : cycle s.countDown = .next t) : StepCase s t := by
  unfold cycle at h
  split at h
  · rename_i hp
    cases h
    exact .outside none ha hw (.inl ⟨hp, rfl⟩)
  · rename_i n hp
    split at h
    · rename_i hn
      unfold decodeAndDispatch at h
      split at h
      · rename_i i hd
        obtain ⟨u, he, rfl⟩ := afterDispatch_next h
        exact .dispatched n i u ha hw hp hn hd he
      · rename_i hd
        obtain ⟨u, he, rfl⟩ := afterDispatch_next h
        cases he
        exact .undecodable n ha hw hp hn hd
    · rename_i hn
      cases h
      exact .outside (some (n : Int)) ha hw (.inr ⟨n, hp, by simpa using hn, rfl⟩)

theorem resumeRead_cases {s t : State} (ha : s.abortIn ≠ some 0) (hw : s.waiting = true)
    (h : resumeRead s.countDown = .next t) : StepCase s t := by
  unfold resumeRead at h
  split at h
  · rename_i x hi
    split at h
    · cases h
    · rename_i ht
      obtain ⟨u, he, rfl⟩ := afterDispatch_next h
      exact .resumed x u ha hw ht hi he
  · cases h

theorem liveStep_cases {s t : State} (h : liveStep s = .next t) : StepCase s t := by
  unfold liveStep at h
  split at h
  · rename_i ha
    cases h
    exact .abort ha
  · rename_i hd
    have ha : s.abortIn ≠ some 0 := fun e => hd (.inl e)
    unfold advance at h
    cases hw : s.waiting with
    | true => rw [State.countDown_waiting, hw, if_pos rfl] at h; exact resumeRead_cases ha hw h
    | false => rw [State.countDown_waiting, hw, if_neg (by decide)] at h; exact cycle_cases ha hw h

/-- Everything a step can do: the run was live, and one of the cases holds. -/
theorem step_cases {s t : State} (h : step s = .next t) :
    (s.run = .loaded ∨ s.run = .running) ∧ StepCase s t := by
  unfold step stepOnce at h
  split at h
  · rename_i hr; exact ⟨.inl hr, liveStep_cases h⟩
  · rename_i hr; exact ⟨.inr hr, liveStep_cases h⟩
  all_goals cases h

end Sys2Proof.Machine
end

