-- ==== Sys2Proof/Tests/Slice0.lean ====
section
/-! SUPPORT. Tests of the model against the spec's own words and vectors (95_test_vectors.md), a smoke test of
WellFormed, and for each statement with hypotheses a concrete state that meets them. -/

namespace Sys2Proof.Tests

open Sys2Proof.Machine

/-! ### WellFormed: an ill-formed term for each check, refused -/

theorem test_illformed_mov : (Instr.mov 0 0).wellFormed = false := by decide
theorem test_illformed_add : (Instr.add 1 2 0).wellFormed = false := by decide
theorem test_illformed_sub : (Instr.sub 1 0 2).wellFormed = false := by decide
theorem test_illformed_call : (Instr.call 0 5).wellFormed = false := by decide
theorem test_illformed_data : (Instr.data 0x1234).wellFormed = false := by decide
theorem test_wellformed_data : (Instr.data 0x4312).wellFormed = true := by decide

/-! ### Decode: a word of every constructor, written out from its pattern (30_encoding.md R80 to R104) -/

theorem test_decode_halt : decodeWord 0b0000000000000000 = some (.halt) := by decide
theorem test_decode_read : decodeWord 0b0000000100000001 = some (.read 1) := by decide
theorem test_decode_write : decodeWord 0b0000111100000010 = some (.write 15) := by decide
theorem test_decode_jumpi : decodeWord 0b0000111000000011 = some (.jumpi 14) := by decide
theorem test_decode_loadn : decodeWord 0b0001000110000000 = some (.loadn 1 0x80) := by decide
theorem test_decode_load : decodeWord 0b0010010100001010 = some (.load 5 10) := by decide
theorem test_decode_store : decodeWord 0b0011001000001010 = some (.store 2 10) := by decide
theorem test_decode_loadi : decodeWord 0b0100001100010000 = some (.loadi 3 1) := by decide
theorem test_decode_storei : decodeWord 0b0100010000010001 = some (.storei 4 1) := by decide
theorem test_decode_addn : decodeWord 0b0101000111111111 = some (.addn 1 0xFF) := by decide
theorem test_decode_nop : decodeWord 0b0110000000000000 = some (.nop) := by decide
theorem test_decode_mov : decodeWord 0b0110000100100000 = some (.mov 1 2) := by decide
theorem test_decode_add : decodeWord 0b0110000100100011 = some (.add 1 2 3) := by decide
theorem test_decode_neg : decodeWord 0b0111000100000010 = some (.neg 1 2) := by decide
theorem test_decode_sub : decodeWord 0b0111000100010010 = some (.sub 1 1 2) := by decide
theorem test_decode_mul : decodeWord 0b1000000101110001 = some (.mul 1 7 1) := by decide
theorem test_decode_div : decodeWord 0b1001000100100011 = some (.div 1 2 3) := by decide
theorem test_decode_mod : decodeWord 0b1010000100100011 = some (.mod 1 2 3) := by decide
theorem test_decode_jump : decodeWord 0b1011000000000101 = some (.jump 5) := by decide
theorem test_decode_call : decodeWord 0b1011000100000101 = some (.call 1 5) := by decide
theorem test_decode_jeqz : decodeWord 0b1100000111001000 = some (.jeqz 1 200) := by decide
theorem test_decode_jnez : decodeWord 0b1101001000000000 = some (.jnez 2 0) := by decide
theorem test_decode_jgtz : decodeWord 0b1110001100000111 = some (.jgtz 3 7) := by decide
theorem test_decode_jltz : decodeWord 0b1111001100000111 = some (.jltz 3 7) := by decide
theorem test_decode_data : decodeWord 0b0100001100010010 = some (.data 17170) := by decide

theorem test_decodeTableWord_add : decodeTableWord 16 0x6123 = some (.add 1 2 3) := by decide
theorem test_decode_text : decode (.text "0110000100100011".toList) = .ok (.add 1 2 3) := by decide
theorem test_decode_short_text : decode (.text "011000010010001".toList) = .error .undecodable := by decide
theorem test_decode_integer : decode (.integer 24867) = .error .undecodable := by decide
theorem test_args_loadn : (decodeWord 0x1180).map Instr.args = some [1, -128] := by decide
theorem test_text_neg : (decodeWord 0x7102).map Instr.text = some "neg r1, r2" := by decide

/-! ### CODEC (95_test_vectors.md 2.1) -/

theorem test_codec_negative : intToTwosComplement (-5) = .ok [true, true, true, true, true, false, true, true] := by decide
theorem test_codec_minus_200 : intToTwosComplement (-200) = .ok [false, false, true, true, true, false, false, false] := by
  decide
theorem test_codec_refuses_256 : intToTwosComplement 256 = .error .outOfDomain := by decide
theorem test_codec_refuses_width_0 : intToTwosComplement 0 0 = .error .outOfDomain := by decide
theorem test_codec_carry_kept : binaryAdd [true, true, true] [true] = [true, false, false, false] := by decide
theorem test_codec_unequal : binaryAdd [true, false, true, false] [true, true] = [true, true, false, true] := by decide

/-! ### Loader (70_reset_and_hazards.md R187 to R189) -/

theorem test_load_two_words :
    parseImage ["0000 0001 0000 0001".toList, "0000000000000000".toList, "  ".toList, "x".toList] = .ok [0x0101, 0] := by
  decide
theorem test_load_rejects_character : parseImage ["00000001000000012".toList] = .error .badCharacter := by decide
theorem test_load_rejects_short : parseImage ["000000010000000".toList] = .error .notSixteenBits := by decide
theorem test_load_rejects_empty : parseImage ["".toList, "0000000000000000".toList] = .error .noWords := by decide

/-! ### One step of each instruction -/

/-- A loaded program of `k` nops, about to run address 4, with registers set. -/
def start (k : Nat) (regs : List (Reg × Int)) : State :=
  regs.foldl (fun s p => s.setReg p.1 p.2) { State.load (List.replicate k 0x6000) with pc := .addr 4 }

/-- The state after the step that runs word `w` from a state. -/
def after (s : State) (w : Nat) : Option State :=
  match step (s.withFetchWord 16 w) with
  | .next t => some t
  | _ => none

/-- The cause and target of the failure that running word `w` ends in. -/
def failure (s : State) (w : Nat) : Option (FailCause × Option Int) :=
  match after s w with
  | some t => t.fault.map fun f => (f.cause, f.target)
  | none => none

theorem test_halt : (after (start 10 []) 0x0000).map (fun t => (t.pc, t.run, t.lpc)) = some (.halt, .halted, some 4) := by decide
theorem test_read : (after ({ start 10 [] with input := [.value 32768, .value 42, .value 7] }) 0x0101).map (fun t => (t.reg 1, t.waiting, t.input)) = some (42, false, [.value 7]) := by decide
theorem test_read_abort : (after ({ start 10 [(1, 3)] with input := [.abort] }) 0x0101).map (fun t => (t.reg 1, t.run)) = some (3, .aborted) := by decide
theorem test_write : (after ({ start 10 [(1, -5)] with out := [9], regs := (start 10 [(1, -5)]).regs }) 0x0102).map (fun t => (t.out, t.outputText)) = some ([9, -5], "9\n-5\n") := by decide
theorem test_write_r0 : (after (start 10 []) 0x0002).map (State.out) = some ([0]) := by decide
theorem test_jumpi : (after (start 10 [(14, 2)]) 0x0E03).map (State.pc) = some (.addr 2) := by decide
theorem test_jumpi_256 : failure (start 10 [(14, 256)]) 0x0E03 = some (.jumpOutOfBounds, some 256) := by decide
theorem test_jump_last : (after (start 10 []) 0xB009).map (State.pc) = some (.addr 9) := by decide
theorem test_jump_codeSize : failure (start 10 []) 0xB00A = some (.jumpOutOfBounds, some 10) := by decide
theorem test_call : (after (start 10 []) 0xBE07).map (fun t => (t.reg 14, t.pc)) = some (5, .addr 7) := by decide
theorem test_call_bad_target : failure (start 10 []) 0xBEC8 = some (.jumpOutOfBounds, some 200) := by decide
theorem test_jeqz_not_taken : (after (start 10 [(1, 3)]) 0xC108).map (State.pc) = some (.addr 5) := by decide
theorem test_jeqz_not_taken_checked : failure (start 10 [(1, 3)]) 0xC1C8 = some (.jumpOutOfBounds, some 200) := by decide
theorem test_jnez : (after (start 10 [(2, -1)]) 0xD200).map (State.pc) = some (.addr 0) := by decide
theorem test_jnez_r0_checked : failure (start 10 []) 0xD00A = some (.jumpOutOfBounds, some 10) := by decide
theorem test_jgtz : (after (start 10 [(3, 1)]) 0xE307).map (State.pc) = some (.addr 7) := by decide
theorem test_jgtz_min : (after (start 10 [(3, -32768)]) 0xE307).map (State.pc) = some (.addr 5) := by decide
theorem test_jltz_min : (after (start 10 [(3, -32768)]) 0xF307).map (State.pc) = some (.addr 7) := by decide
theorem test_jltz_zero : (after (start 10 [(3, 0)]) 0xF307).map (State.pc) = some (.addr 5) := by decide
theorem test_loadn_min : (after (start 8 []) 0x1180).map (fun t => (t.reg 1, t.pc)) = some (-128, .addr 5) := by decide
theorem test_loadn_r0 : (after (start 8 []) 0x1005).map (fun t => (t.reg 0, t.regs[0])) = some (0, 0) := by decide
theorem test_load : (after ((start 8 []).memWrite 10 200) 0x250A).map (fun t => t.reg 5) = some 200 := by decide
theorem test_load_from_code : failure (start 8 []) 0x2507 = some (.loadOutOfBounds, some 7) := by decide
theorem test_store : (after (start 8 [(2, -100)]) 0x320A).map (fun t => (t.memRead 10, t.memRead 7)) = some (-100, 0x6000) := by decide
theorem test_store_to_code : failure (start 8 [(2, 100)]) 0x3200 = some (.storeOutOfBounds, some 0) := by decide
theorem test_loadi_same_register : (after ((start 8 [(1, 10)]).memWrite 10 100) 0x4110).map (fun t => t.reg 1) = some 100 := by
  decide
theorem test_loadi_negative : failure (start 8 [(1, -1)]) 0x4310 = some (.loadOutOfBounds, some (-1)) := by decide
theorem test_storei : (after (start 8 [(4, 200), (1, 255)]) 0x4411).map (fun t => t.memRead 255) = some (200) := by decide
theorem test_storei_256 : failure (start 8 [(1, 256)]) 0x4411 = some (.storeOutOfBounds, some 256) := by decide
theorem test_addn : (after (start 10 [(1, 3)]) 0x51FF).map (fun t => t.reg 1) = some (2) := by decide
theorem test_addn_overflow : failure (start 10 [(1, 32767)]) 0x5101 = some (.arithmeticOverflow, some 32768) := by decide
theorem test_add : (after (start 10 [(2, 32767), (3, -32768)]) 0x6123).map (fun t => t.reg 1) = some (-1) := by decide
theorem test_add_to_r0_overflow : failure (start 10 [(2, 32767), (3, 1)]) 0x6023 = some (.arithmeticOverflow, some 32768) := by decide
theorem test_mov : (after (start 10 [(2, 7)]) 0x6120).map (fun t => (t.reg 1, t.reg 2)) = some (7, 7) := by decide
theorem test_nop : (after (start 10 [(2, 7)]) 0x6000).map (fun t => (t.regs, t.pc, t.ir)) = some ((start 10 [(2, 7)]).regs, .addr 5, some 0x6000) := by decide
theorem test_sub : (after (start 10 [(1, 5), (2, 7)]) 0x7312).map (fun t => t.reg 3) = some (-2) := by decide
theorem test_sub_overflow : failure (start 10 [(1, -32768), (2, 1)]) 0x7312 = some (.arithmeticOverflow, some (-32769)) := by decide
theorem test_neg : (after (start 10 [(2, 32767)]) 0x7102).map (fun t => t.reg 1) = some (-32767) := by decide
theorem test_neg_min : failure (start 10 [(2, -32768)]) 0x7102 = some (.arithmeticOverflow, some 32768) := by decide
theorem test_mul : (after (start 10 [(2, -256), (3, 128)]) 0x8123).map (fun t => t.reg 1) = some (-32768) := by decide
theorem test_mul_overflow : failure (start 10 [(2, 182), (3, 182)]) 0x8123 = some (.arithmeticOverflow, some 33124) := by decide
theorem test_div_floor : (after (start 10 [(2, -7), (3, 2)]) 0x9123).map (fun t => t.reg 1) = some (-4) := by decide
theorem test_div_corner : failure (start 10 [(2, -32768), (3, -1)]) 0x9123 = some (.arithmeticOverflow, some 32768) := by decide
theorem test_mod_floor : (after (start 10 [(2, 7), (3, -2)]) 0xA123).map (fun t => t.reg 1) = some (-1) := by decide
theorem test_mod_zero : failure (start 10 [(2, 5)]) 0xA123 = some (.divideByZero, none) := by decide
theorem test_data : failure (start 10 []) 0x0004 = some (.invalidOpcode, none) := by decide
theorem test_fault_record :
    ((after (start 10 [(2, 7)]) 0x9123).map State.fault) =
      some (some ⟨.divideByZero, .addr 5, some 4, some 0x9123, some .div, [1, 2, 3], none⟩) := by decide
theorem test_fault_code : (after (start 10 [(2, 7)]) 0x9123).map State.faultCode = some 7 := by decide
theorem test_r0_forced : (after { start 10 [] with regs := Vector.replicate 16 9 } 0x6001).map (fun t => t.regs[0]) = some 0 := by
  decide

/-! ### For each statement with hypotheses: a concrete state and operands that meet them -/

/-- The state `start 10` with word `w` to run next. -/
def next (w : Nat) (regs : List (Reg × Int)) : State := (start 10 regs).withFetchWord 16 w

/-- A run blocked on `read r3`. -/
def blocked (input : List HostAnswer) : State :=
  { start 10 [] with run := .running, waiting := true, ir := some 0x0301, lpc := some 3, input := input }

theorem decidedSound (s : State) (n : Nat) (h : s.pc = .addr n) (hr : s.run = .loaded ∨ s.run = .running)
    (hn : n ≤ s.codeSize) (h0 : s.regs[0] = 0) (h1 : ∀ (r : Nat) (h : r < 16), InRange s.regs[r])
    (h2 : ∀ v ∈ s.out, InRange v) (h3 : s.codeSize ≤ 256) (h4 : s.mem.wf = true)
    (h5 : ∀ a, a < s.codeSize → (lookupCell s.mem a).isSome = true) (h6 : s.lpc = none) (h7 : s.fault = none)
    (h8 : s.waiting = false) : s.Sound where
  r0 := h0
  regs := h1
  out := h2
  codeSize := h3
  mem := h4
  code := h5
  pc := ⟨by rcases hr with g | g <;> simp [h, g], by intro k hk; rw [h] at hk; cases hk; exact hn⟩
  lpc := by simp [h6]
  fault := by rcases hr with g | g <;> simp [h7, g]
  waiting := by simp [h8]

theorem witness_sound : (next 0x6123 [(2, 7)]).Sound :=
  decidedSound _ 4 rfl (.inl rfl) (by decide) (by decide) (by decide) (by decide) (by decide) (by decide) (by decide)
    rfl rfl rfl
theorem witness_wellformed_boundary : (Instr.mov 0 15).wellFormed = true ∧ (Instr.add 0 0 1).wellFormed = true
    ∧ (Instr.sub 0 15 0).wellFormed = true ∧ (Instr.call 1 255).wellFormed = true ∧ (Instr.halt).wellFormed = true
    ∧ (Instr.data 0x0100).wellFormed = true ∧ (Instr.data 0x0004).wellFormed = true
    ∧ (Instr.data 0x4FF2).wellFormed = true := by decide
theorem witness_PatternsDecodeBitForBit : (1 : Reg) ≠ 0 ∧ (15 : Reg) ≠ 0 ∧ unassigned 0x0F00 = true
    ∧ unassigned 0x0FFF = true := by decide
theorem witness_UndecodableExactlyWhenNotAWord :
    ∀ e ∈ ([⟨1, 0xFFFF, .read⟩] : List OpcodeRow), (0 : Word) &&& e.mask ≠ e.value := by decide
theorem test_table_order : decodeWith [⟨0x6000, 0xF000, .add⟩, ⟨0x6000, 0xFFFF, .nop⟩] 0x6000 = some (.add 0 0 0) := by decide
theorem witness_NonNegativeValuesArePadded : 1 ≤ 1 ∧ 1 < 2 ^ 1 := by decide
theorem witness_NegativeValuesAreComplemented : (1 ≤ 8 ∧ -(2 ^ 8 : Int) < -255 ∧ (-255 : Int) < 0 ∧ -(2 ^ 7 : Int) ≤ -128)
    ∧ (-256 : Int) ≤ -(2 ^ 8 : Int) ∧ (2 ^ 8 : Int) ≤ 256 ∧ 0 < 1 := by decide
theorem witness_CodecRoundTrip : InRange (-32768) ∧ InRange 32767 ∧ (-128 : Int) ≤ -128 ∧ (127 : Int) ≤ 127 := by decide
theorem witness_LoadEstablishesTheStart : 1 ≤ ([0x0000] : List Word).length ∧ ([0x0000] : List Word).length ≤ 255 := by
  decide
theorem witness_LoadEstablishesTheStart_full : 1 ≤ (List.replicate 256 (0 : Word)).length
    ∧ (List.replicate 256 (0 : Word)).length ≤ 256 := by
  rw [List.length_replicate]; decide
theorem witness_LoadedStateIsSound : loadProgram (some ["0000000000000000".toList]) = .ok (State.load [0]) := by decide
theorem witness_StepKeepsSound : (next 0x6123 [(2, 7)]).Sound ∧ (after (start 10 [(2, 7)]) 0x6123).isSome = true :=
  ⟨witness_sound, by decide⟩
theorem witness_SoundLiveStatesStep : (next 0x6123 [(2, 7)]).Sound ∧ ¬ (next 0x6123 [(2, 7)]).Terminal
    ∧ (next 0x6123 [(2, 7)]).waiting = false :=
  ⟨witness_sound, by decide⟩
theorem witness_blocked_sound : (blocked [.value 32768]).Sound where
  r0 := by decide
  regs := (by decide : ∀ (r : Nat) (h : r < 16), InRange (blocked [.value 32768]).regs[r])
  out := fun v h => by cases h
  codeSize := by decide
  mem := by decide
  code := (by decide : ∀ a, a < (blocked [.value 32768]).codeSize →
    (lookupCell (blocked [.value 32768]).mem a).isSome = true)
  pc := ⟨by decide, fun n h => by cases h; decide⟩
  lpc := fun n h => by cases h; decide
  fault := by decide
  waiting := fun _ => ⟨rfl, 3, by decide⟩
theorem witness_SoundLiveStatesStep_stuck : (blocked [.value 32768]).Sound ∧ ¬ (blocked [.value 32768]).Terminal
    ∧ (blocked [.value 32768]).waiting = true ∧ AllTurnedAway [.value 32768] ∧ (blocked [.value 32768]).abortIn = none :=
  ⟨witness_blocked_sound, by decide, rfl, fun a ha => ⟨32768, by simpa using ha, by decide⟩, rfl⟩
theorem witness_TerminalStatesHaveNoStep : { start 10 [] with run := .failed }.Terminal ∧ { start 10 [] with run := .aborted }.Terminal
    ∧ (start 10 []).stop.Terminal := by decide
theorem witness_StepRunsTheDecodedInstruction : (next 0x6123 []).Live ∧ (next 0x6123 []).waiting = false
    ∧ (next 0x6123 []).abortIn ≠ some 0 ∧ (next 0x6123 []).pc = .addr 4 ∧ 4 < (next 0x6123 []).codeSize
    ∧ decodeWord ((next 0x6123 []).wordAt 4) = some (.add 1 2 3) := by decide
theorem witness_PcOutsideCodeFails : { start 10 [] with pc := .addr 10 }.Live ∧ (start 10 []).waiting = false
    ∧ (start 10 []).abortIn ≠ some 0 ∧ { start 10 [] with pc := .addr 10 }.codeSize ≤ 10
    ∧ { start 10 [] with pc := .addr 10 }.ir = none := by decide
theorem witness_PcOutsideCodeFails_decoded : { start 10 [] with pc := .addr 10, ir := some 0x6123 }.ir = some 0x6123
    ∧ decodeWord 0x6123 = some (.add 1 2 3) := by decide
theorem witness_CodeNeverChanges : (after (start 10 [(2, 7)]) 0x320A).map (fun t => t.memRead 10) = some 7
    ∧ 0 < (next 0x320A []).codeSize := by decide
theorem witness_FailedStepIsPrecise_dispatched : (after (start 10 []) 0x9123).map (fun t => t.run) = some .failed
    ∧ (next 0x9123 []).pc = .addr 4 ∧ 4 < (next 0x9123 []).codeSize := by decide
theorem witness_FailedStepIsPrecise_outside :
    (match step { start 10 [] with pc := .addr 10 } with | .next t => t.run == .failed | _ => false) = true
    ∧ { start 10 [] with pc := .addr 10 }.codeSize ≤ 10 := by decide
theorem witness_FailureRecordHoldsTheContext : (start 10 []).run ≠ .failed
    ∧ (match exec (.data 4) (start 10 []) with | .next t => t.run == .failed | _ => false) = true := by decide
theorem witness_OutputOnlyGrows : (after (start 10 []) 0x0002).map (fun t => t.out) = some [0] := by decide
theorem witness_HaltedExactlyByHalt : (after (start 10 []) 0x0000).map (fun t => t.run) = some .halted := by decide
theorem witness_AbortedOnlyByTheHost_answer :
    (after { start 10 [] with input := [.value 40000, .abort] } 0x0101).map (fun t => t.run) = some .aborted := by decide
theorem witness_AbortedOnlyByTheHost_signal :
    (match step ((start 10 []).hostAbortAfter 0) with | .next t => t.run == .aborted | _ => false) = true := by decide
theorem witness_AbortedOnlyByTheHost_blocked :
    (match step ((blocked [.value 32768]).hostAbortAfter 5) with | .next t => t.run == .aborted | _ => false) = true
    ∧ (match step (blocked [.abort]) with | .next t => t.run == .aborted | _ => false) = true := by decide
theorem witness_HostAbortEndsTheRun : ((start 10 []).hostAbortAfter 0).Live
    ∧ ((start 10 []).hostAbortAfter 0).abortIn = some 0 ∧ ((blocked []).hostAbortAfter 0).Live
    ∧ ((blocked []).hostAbortAfter 5).Live ∧ ((blocked []).hostAbortAfter 5).waiting = true
    ∧ ((blocked []).hostAbortAfter 5).input = [] ∧ ((blocked []).hostAbortAfter 5).abortIn ≠ none := by decide
theorem witness_RegisterZeroIsHardwired :
    (match exec (.loadn 0 5) (start 10 []) with | .next t => t.regs == (start 10 []).regs | _ => false) = true := by decide
theorem witness_CycleWritesAtMostOneResult : (next 0x1180 []).waiting = false ∧ (next 0x1180 []).abortIn ≠ some 0
    ∧ (next 0x1180 []).pc = .addr 4 ∧ 4 < (next 0x1180 []).codeSize
    ∧ decodeWord ((next 0x1180 []).wordAt 4) = some (.loadn 1 0x80)
    ∧ (after (start 10 []) 0x1180).map (fun t => (t.run, t.waiting)) = some (.running, false) := by decide
/-- Words of the forms that store, write, read and write no register, each of which goes on running. -/
theorem witness_CycleWritesAtMostOneResult_forms :
    [0x320A, 0x32FF, 0x4211, 0x0102, 0x0101, 0x6000].map (fun w =>
      (after { start 10 [(1, 255), (2, 7)] with input := [.value 32768, .value 42] } w).map fun t => (t.run, t.waiting))
      = List.replicate 6 (some (.running, false)) := by decide
theorem witness_PlacedWordRunsNext : 0x6123 < 65536 ∧ decodeTableWord 16 0x6123 = some (.add 1 2 3)
    ∧ (start 10 []).placeAddress < (start 10 []).codeSize ∧ State.reset.codeSize ≤ State.reset.placeAddress := by decide
theorem witness_turned_away : AllTurnedAway [.value 32768, .value (-32769)] := by
  intro a ha
  simp only [List.mem_cons, List.not_mem_nil, or_false] at ha
  rcases ha with rfl | rfl
  · exact ⟨32768, rfl, by decide⟩
  · exact ⟨-32769, rfl, by decide⟩
theorem witness_ReadTakesTheHostsAnswer_value : InRange (-32768) ∧ InRange 32767
    ∧ { start 10 [] with input := [.value 32768, .value (-32769), .value 32767, .abort] }.input
      = [.value 32768, .value (-32769)] ++ .value 32767 :: [.abort] := by decide
theorem witness_ReadTakesTheHostsAnswer_abort :
    { start 10 [] with input := [.value 32768, .value (-32769), .abort] }.input
      = [.value 32768, .value (-32769)] ++ .abort :: [] := by decide
theorem witness_ReadTakesTheHostsAnswer_block :
    { start 10 [] with input := [.value 32768, .value (-32769)] }.input = [.value 32768, .value (-32769)] := by decide
theorem witness_BlockedReadWaitsForTheHost : (blocked [.value 32767]).run = .running ∧ (blocked []).waiting = true
    ∧ (blocked []).abortIn ≠ some 0 ∧ (blocked []).irInstr = some (.read 3) ∧ (blocked []).regs[0] = 0
    ∧ (blocked []).input = [] ∧ (blocked [.value 32767]).input = [] ++ .value 32767 :: []
    ∧ (blocked [.abort]).input = [] ++ .abort :: [] ∧ (blocked []).abortIn = none
    ∧ ((blocked []).hostAbortAfter 1).abortIn ≠ some 0 ∧ ((blocked []).hostAbortAfter 1).abortIn ≠ none := by decide
theorem witness_JumpiGoesToTheRegistersValue : (start 10 [(1, 9)]).reg 1 = (9 : Nat) ∧ 9 < (start 10 []).codeSize
    ∧ (start 10 [(1, -1)]).reg 1 < 0 ∧ ((start 10 []).codeSize : Int) ≤ (start 10 [(1, 10)]).reg 1 := by decide
theorem witness_jump_targets : (9 : Imm8).toNat < (start 10 []).codeSize ∧ (start 10 []).codeSize ≤ (10 : Imm8).toNat
    ∧ (start 10 []).pc = .addr 4 := by decide
theorem witness_data_addresses : ((start 8 []).codeSize : Int) ≤ directAddress 8 ∧ directAddress 255 < 256
    ∧ ((start 8 [(1, 8)]).codeSize : Int) ≤ (start 8 [(1, 8)]).indirectAddress 1
    ∧ (start 8 [(1, 255)]).indirectAddress 1 < 256 ∧ ¬ ((start 8 []).codeSize : Int) ≤ directAddress 7
    ∧ ¬ (start 8 [(1, 256)]).reg 1 < 256 ∧ (start 8 [(1, 255)]).reg 1 = (255 : Nat)
    ∧ (start 8 []).codeSize ≤ (8 : Imm8).toNat ∧ InRange ((start 8 [(2, -32768)]).reg 2) := by decide
theorem witness_ArithmeticWritesTheExactResult : InRange ((start 10 [(1, 32640)]).reg 1 + sext8 127)
    ∧ InRange ((start 10 [(2, 32767), (3, -32768)]).reg 2 + (start 10 [(2, 32767), (3, -32768)]).reg 3)
    ∧ InRange (-(start 10 [(2, 32767)]).reg 2) := by decide
theorem witness_ArithmeticOverflowFails : ¬ InRange ((start 10 [(1, 32641)]).reg 1 + sext8 127)
    ∧ ¬ InRange (-(start 10 [(2, -32768)]).reg 2) ∧ ¬ InRange ({ start 10 [] with regs := Vector.replicate 16 40000 }.reg 2) := by
  decide
theorem witness_DivWritesTheFloorQuotient : InRange ((start 10 [(2, -32768), (3, 1)]).reg 2)
    ∧ InRange ((start 10 [(2, -32768), (3, 1)]).reg 3) ∧ (start 10 [(2, -32768), (3, 1)]).reg 3 ≠ 0
    ∧ ¬ ((start 10 [(2, -32768), (3, 1)]).reg 2 = -32768 ∧ (start 10 [(2, -32768), (3, 1)]).reg 3 = -1) := by decide
theorem witness_DivisionCornerFollowsThePolicy : InRange (-32768) ∧ InRange (-1)
    ∧ (start 10 [(2, -32768), (3, -1)]).reg 2 = -32768 ∧ (start 10 [(2, -32768), (3, -1)]).reg 3 = -1 := by decide
theorem witness_ModWritesTheFloorRemainder : (start 10 [(3, -32768)]).reg 3 ≠ 0 ∧ 0 < (start 10 [(3, 1)]).reg 3
    ∧ (start 10 [(3, -1)]).reg 3 < 0 := by decide
theorem witness_ZeroDivisorFails : (start 10 [(2, 5)]).reg 3 = 0 := by decide
theorem witness_SpecialisationsComputeTheSame :
    (Instr.mov 1 2 = .mov 1 2 ∧ Instr.add 1 2 0 = .add 1 2 0) ∧ Instr.nop = .nop ∧ Instr.call 0 5 = .call 0 5 := by decide
theorem witness_DataWordFails : ∀ e ∈ opcodeTable, e.mnemonic ≠ .data → (0x4312 : Word) &&& e.mask ≠ e.value := by decide
theorem witness_DataWordFails_step : (next 0x4312 []).Live ∧ (next 0x4312 []).waiting = false
    ∧ (next 0x4312 []).abortIn ≠ some 0 ∧ (next 0x4312 []).pc = .addr 4 ∧ 4 < (next 0x4312 []).codeSize
    ∧ (next 0x4312 []).wordAt 4 = 0x4312 ∧ decodeWord 0x4312 = some (.data 0x4312) := by decide

end Sys2Proof.Tests
end

section
/-! PROOFS. The DECODER's first-match lookup and its undecodable inputs, the CODEC's reading of a bit string and its
padding of the values 0 <= v < 2^w (30_encoding.md R65, R67, R76, R79). -/

/-! ### First-match lookup (R76) -/

namespace Sys2Proof.Encoding

theorem hits_iff (e : OpcodeRow) (w : Word) : e.hits w = true ↔ w &&& e.mask = e.value := beq_iff_eq

theorem hits_eq_false_iff (e : OpcodeRow) (w : Word) : e.hits w = false ↔ w &&& e.mask ≠ e.value :=
  beq_eq_false_iff_ne

/-- The model's lookup is the library's `find?`, whose characterisation of the first match then applies. -/
theorem lookupRow_eq_find? (table : List OpcodeRow) (w : Word) : lookupRow table w = table.find? (·.hits w) := by
  induction table with
  | nil => rfl
  | cons e rest ih =>
    cases h : e.hits w with
    | true => simp [lookupRow, h]
    | false => simp [lookupRow, h, ih]

theorem lookupRow_eq_none_iff (table : List OpcodeRow) (w : Word) :
    lookupRow table w = none ↔ ∀ d ∈ table, w &&& d.mask ≠ d.value := by
  simp [lookupRow_eq_find?, hits_iff]

theorem lookupRow_eq_some_iff (table : List OpcodeRow) (w : Word) (e : OpcodeRow) :
    lookupRow table w = some e ↔
      ∃ before after, table = before ++ e :: after ∧ w &&& e.mask = e.value ∧ ∀ d ∈ before, w &&& d.mask ≠ d.value := by
  rw [lookupRow_eq_find?, List.find?_eq_some_iff_append]
  constructor
  · rintro ⟨hit, before, after, split, miss⟩
    exact ⟨before, after, split, (hits_iff e w).mp hit, fun d hd => by simpa [hits_eq_false_iff] using miss d hd⟩
  · rintro ⟨before, after, split, hit, miss⟩
    exact ⟨(hits_iff e w).mpr hit, before, after, split, fun d hd => by simpa [hits_eq_false_iff] using miss d hd⟩

/-- Settles O5, from the lookup's two outcomes. -/
theorem firstMatchingEntryWins : Obligations.FirstMatchingEntryWins := fun table w =>
  ⟨lookupRow_eq_some_iff table w, lookupRow_eq_none_iff table w⟩

/-! ### What is undecodable (R79) -/

/-- The fields that a mnemonic's shape takes from a word always fit its instruction. -/
theorem buildInstr_extractFields (m : Mnemonic) (w : Word) : ∃ i, buildInstr m (extractFields m w) = some i := by
  cases m <;> exact ⟨_, rfl⟩

theorem decodeWith_eq_none_iff (table : List OpcodeRow) (w : Word) :
    decodeWith table w = none ↔ lookupRow table w = none := by
  unfold decodeWith
  cases lookupRow table w with
  | none => simp
  | some e =>
    obtain ⟨i, hi⟩ := buildInstr_extractFields e.mnemonic w
    simp [hi]

theorem wildcard_mem_opcodeTable : (⟨0x0000, 0x0000, .data⟩ : OpcodeRow) ∈ opcodeTable := by decide

/-- The table's wildcard entry matches whatever no other entry does. -/
theorem decodeWord_total (w : Word) : ∃ i, decodeWord w = some i := by
  rw [← Option.ne_none_iff_exists']
  intro h
  have miss := (lookupRow_eq_none_iff opcodeTable w).mp ((decodeWith_eq_none_iff opcodeTable w).mp h)
  exact miss _ wildcard_mem_opcodeTable BitVec.and_zero

theorem bitOfChar_eq_none_iff (c : Char) : bitOfChar c = none ↔ ¬ (c = '0' ∨ c = '1') := by
  unfold bitOfChar
  split_ifs with h0 h1
  · simp [h0]
  · simp [h1]
  · simp [h0, h1]

theorem bitsOfText_eq_none_iff (cs : List Char) : bitsOfText cs = none ↔ ¬ ∀ c ∈ cs, c = '0' ∨ c = '1' := by
  induction cs with
  | nil => simp [bitsOfText]
  | cons c rest ih =>
    rw [List.forall_mem_cons, not_and_or, ← bitOfChar_eq_none_iff, ← ih]
    cases hc : bitOfChar c with
    | none => simp [bitsOfText, hc]
    | some b => cases hr : bitsOfText rest <;> simp [bitsOfText, hc, hr]

theorem bitsOfText_length {cs : List Char} {bs : BitString} (h : bitsOfText cs = some bs) : bs.length = cs.length := by
  induction cs generalizing bs with
  | nil =>
    obtain rfl : [] = bs := by simpa [bitsOfText] using h
    rfl
  | cons c rest ih =>
    cases hc : bitOfChar c with
    | none => simp [bitsOfText, hc] at h
    | some b =>
      cases hr : bitsOfText rest with
      | none => simp [bitsOfText, hr] at h
      | some tail =>
        obtain rfl : b :: tail = bs := by simpa [bitsOfText, hc, hr] using h
        simp [ih hr]

theorem wordOfText_eq_none_iff (cs : List Char) :
    wordOfText cs = none ↔ ¬ (cs.length = 16 ∧ ∀ c ∈ cs, c = '0' ∨ c = '1') := by
  unfold wordOfText
  cases h : bitsOfText cs with
  | none => simp [(bitsOfText_eq_none_iff cs).mp h]
  | some bs =>
    have spelled : ∀ c ∈ cs, c = '0' ∨ c = '1' := by
      by_contra bad
      simp [(bitsOfText_eq_none_iff cs).mpr bad] at h
    simp [bitsOfText_length h, and_iff_left spelled]

theorem decode_text_eq_undecodable_iff (cs : List Char) :
    decode (.text cs) = .error .undecodable ↔ wordOfText cs = none := by
  cases h : wordOfText cs with
  | none => simp [decode, h]
  | some w =>
    obtain ⟨i, hi⟩ := decodeWord_total w
    simp [decode, h, hi]

/-- Settles O6: the DECODER refuses a text only where no word is read from it, since every word decodes. -/
theorem undecodableExactlyWhenNotAWord : Obligations.UndecodableExactlyWhenNotAWord := by
  refine ⟨fun v => rfl, fun cs => ?_, fun table w miss => ?_, decodeWord_total⟩
  · exact (decode_text_eq_undecodable_iff cs).trans (wordOfText_eq_none_iff cs)
  · exact (decodeWith_eq_none_iff table w).mpr ((lookupRow_eq_none_iff table w).mpr miss)

/-! ### The value of a bit string (R67) -/

@[simp] theorem bitStringToInt_nil : bitStringToInt [] = 0 := rfl

@[simp] theorem bitStringToInt_cons (c : Bool) (rest : BitString) :
    bitStringToInt (c :: rest) = c.toNat * 2 ^ rest.length + bitStringToInt rest := rfl

theorem bitStringToInt_eq_sum (b : BitString) :
    bitStringToInt b = ∑ k : Fin b.length, (b[k]).toNat * 2 ^ (b.length - 1 - k.val) := by
  induction b with
  | nil => rfl
  | cons c rest ih =>
    have weight (k : Fin rest.length) : rest.length - (k.val + 1) = rest.length - 1 - k.val := by omega
    simp [Fin.sum_univ_succ, ih, weight]

/-- Settles O13, by induction on the string: the first bit's weight comes out of the sum. -/
theorem bitStringValueIsWeightedSum : Obligations.BitStringValueIsWeightedSum :=
  ⟨bitStringToInt_nil, fun b => ⟨bitStringToInt_eq_sum b, Int.natCast_nonneg _⟩⟩

/-! ### Padding a value that is not negative (R65) -/

@[simp] theorem binaryString_length (w n : Nat) : (binaryString w n).length = w := by
  induction w with
  | zero => rfl
  | succ w ih => simp [binaryString, ih]

theorem bitStringToInt_binaryString (w n : Nat) : bitStringToInt (binaryString w n) = n % 2 ^ w := by
  induction w with
  | zero => simp [binaryString, Nat.mod_one]
  | succ w ih =>
    calc bitStringToInt (binaryString (w + 1) n)
        = (n.testBit w).toNat * 2 ^ w + n % 2 ^ w := by simp [binaryString, ih]
      _ = n % 2 ^ (w + 1) := by rw [Nat.mod_pow_succ, Nat.toNat_testBit]; ring

@[simp] theorem zeroExtend_length (a : BitString) : zeroExtend a.length a = a := by simp [zeroExtend]

theorem rippleColumns_zeros (a : BitString) : rippleColumns a (List.replicate a.length false) = (a, false) := by
  induction a with
  | nil => rfl
  | cons c rest ih => cases c <;> simp [rippleColumns, List.replicate_succ, ih]

/-- Adding zeros of the same width leaves no carry and changes no bit. -/
theorem binaryAdd_zeros (a : BitString) : binaryAdd a (List.replicate a.length false) = a := by
  have padded : zeroExtend a.length (List.replicate a.length false) = List.replicate a.length false := by
    simp [zeroExtend]
  simp [binaryAdd, padded, rippleColumns_zeros]

theorem intToTwosComplement_natCast {w v : Nat} (hw : 1 ≤ w) (hv : v < 2 ^ w) :
    intToTwosComplement v w = .ok (binaryString w v) := by
  have below : (v : Int) < 2 ^ w := by exact_mod_cast hv
  have inDomain : ¬ (w < 1 ∨ (v : Int) ≤ -(2 ^ w : Int) ∨ (2 ^ w : Int) ≤ v) := by omega
  have added := binaryAdd_zeros (binaryString w v)
  rw [binaryString_length] at added
  rw [intToTwosComplement, if_neg inDomain, if_pos (Int.natCast_nonneg v), Int.toNat_natCast, added]

/-- Settles O14: the sum with the zeros is the string itself, whose value is v mod 2^w. -/
theorem nonNegativeValuesArePadded : Obligations.NonNegativeValuesArePadded := by
  intro w v hw hv
  have value : bitStringToInt (binaryString w v) = v := by rw [bitStringToInt_binaryString, Nat.mod_eq_of_lt hv]
  exact ⟨intToTwosComplement_natCast hw hv, binaryString_length w v, value, rfl⟩

end Sys2Proof.Encoding
end

section
/-! PROOFS. Control transfer: the four conditional jumps share one meaning, which checks the target of a jump before it
tests the register (42_control_transfer.md R130, R134 to R138). -/

namespace Sys2Proof.Machine

/-! ### What a failure changes, and which targets are legal (R130) -/

theorem State.fail_failsBy (s : State) (c : FailCause) (who : Option Instr) (target : Option Int) :
    s.FailsBy (s.fail c who target) c target :=
  ⟨rfl, ⟨_, rfl, rfl, rfl⟩, rfl, fun _ => rfl⟩

/-- An immediate target is never negative, so only its upper bound counts. -/
theorem State.inCode_zext8_iff {s : State} {n : Imm8} : s.InCode (zext8 n) ↔ n.toNat < s.codeSize := by
  simp [State.InCode, zext8]

/-! ### The conditions on a register value (R135 to R138) -/

@[simp] theorem Condition.holds_eqZero_iff (v : Int) : Condition.eqZero.holds v = true ↔ v = 0 := decide_eq_true_iff
@[simp] theorem Condition.holds_neZero_iff (v : Int) : Condition.neZero.holds v = true ↔ v ≠ 0 := decide_eq_true_iff
@[simp] theorem Condition.holds_gtZero_iff (v : Int) : Condition.gtZero.holds v = true ↔ 0 < v := decide_eq_true_iff
@[simp] theorem Condition.holds_ltZero_iff (v : Int) : Condition.ltZero.holds v = true ↔ v < 0 := decide_eq_true_iff

/-! ### The meaning that the conditional jumps share (R134) -/

section Branch

variable {i : Instr} {c : Condition} {x : Reg} {n : Imm8} {s : State}

theorem branchIf_of_lt (legal : n.toNat < s.codeSize) :
    branchIf i c x n s = .next (if c.holds (s.reg x) then { s with pc := .addr n.toNat } else s) :=
  checkTarget_of_inCode (State.inCode_zext8_iff.mpr legal)

/-- The failure depends neither on the condition nor on the register's value. -/
theorem branchIf_of_le (bad : s.codeSize ≤ n.toNat) :
    branchIf i c x n s = .next (s.fail .jumpOutOfBounds (some i) (some (n.toNat : Int))) :=
  checkTarget_of_not_inCode (mt State.inCode_zext8_iff.mp bad.not_gt)

end Branch

theorem exec_jeqz (x : Reg) (n : Imm8) (s : State) : exec (.jeqz x n) s = branchIf (.jeqz x n) .eqZero x n s := rfl
theorem exec_jnez (x : Reg) (n : Imm8) (s : State) : exec (.jnez x n) s = branchIf (.jnez x n) .neZero x n s := rfl
theorem exec_jgtz (x : Reg) (n : Imm8) (s : State) : exec (.jgtz x n) s = branchIf (.jgtz x n) .gtZero x n s := rfl
theorem exec_jltz (x : Reg) (n : Imm8) (s : State) : exec (.jltz x n) s = branchIf (.jltz x n) .ltZero x n s := rfl

theorem exec_conditionalJump {i : Instr} {x : Reg} {n : Imm8}
    (hi : i = .jeqz x n ∨ i = .jnez x n ∨ i = .jgtz x n ∨ i = .jltz x n) (s : State) :
    ∃ c, exec i s = branchIf i c x n s := by
  obtain rfl | rfl | rfl | rfl := hi
  · exact ⟨.eqZero, exec_jeqz x n s⟩
  · exact ⟨.neZero, exec_jnez x n s⟩
  · exact ⟨.gtZero, exec_jgtz x n s⟩
  · exact ⟨.ltZero, exec_jltz x n s⟩

/-- Settles O43: with a legal target the shared meaning tests the register, and with a bad one it fails whatever the
condition. -/
theorem conditionalJumpsAlwaysCheckTheirTarget : Obligations.ConditionalJumpsAlwaysCheckTheirTarget := by
  intro x n s
  refine ⟨fun legal => ⟨?eqZero, ?neZero, ?gtZero, ?ltZero⟩, fun bad i hi => ?fails⟩
  case eqZero => simp only [exec_jeqz, branchIf_of_lt legal, Condition.holds_eqZero_iff]
  case neZero => simp only [exec_jnez, branchIf_of_lt legal, Condition.holds_neZero_iff]
  case gtZero => simp only [exec_jgtz, branchIf_of_lt legal, Condition.holds_gtZero_iff, gt_iff_lt]
  case ltZero => simp only [exec_jltz, branchIf_of_lt legal, Condition.holds_ltZero_iff]
  case fails =>
    obtain ⟨c, hc⟩ := exec_conditionalJump hi s
    exact ⟨_, hc.trans (branchIf_of_le bad), s.fail_failsBy _ _ _⟩

end Sys2Proof.Machine
end

section
/-! PROOFS. Data words: the wildcard entry is the last of the table, and a cycle that fetches a data word ends in the
failure that its meaning takes (45_invalid.md R161; 30_encoding.md R104, R106). -/

/-! ### A word that only the wildcard matches (R104, R106) -/

namespace Sys2Proof.Encoding

theorem opcodeTable_eq_append_wildcard : opcodeTable = opcodeTable.dropLast ++ [⟨0x0000, 0x0000, .data⟩] := rfl

theorem mnemonic_ne_data_of_mem_dropLast : ∀ e ∈ opcodeTable.dropLast, e.mnemonic ≠ .data := by decide

theorem lookupRow_eq_wildcard {w : Word}
    (miss : ∀ e ∈ opcodeTable, e.mnemonic ≠ .data → w &&& e.mask ≠ e.value) :
    lookupRow opcodeTable w = some ⟨0x0000, 0x0000, .data⟩ := by
  rw [lookupRow_eq_some_iff]
  refine ⟨opcodeTable.dropLast, [], opcodeTable_eq_append_wildcard, BitVec.and_zero, fun e he => ?_⟩
  exact miss e (List.mem_of_mem_dropLast he) (mnemonic_ne_data_of_mem_dropLast e he)

/-- The shape `n` takes the whole word. -/
theorem buildInstr_data (w : Word) : buildInstr .data (extractFields .data w) = some (.data w) := rfl

theorem decodeWord_eq_data_of_miss {w : Word}
    (miss : ∀ e ∈ opcodeTable, e.mnemonic ≠ .data → w &&& e.mask ≠ e.value) : decodeWord w = some (.data w) := by
  simp only [decodeWord, decodeWith, lookupRow_eq_wildcard miss, buildInstr_data]

end Sys2Proof.Encoding

namespace Sys2Proof.Machine

/-! ### The cycle of a word that is fetched and decoded (R110 to R117) -/

section Fetch

variable {s t : State} {i : Instr} {n : Nat}

theorem step_of_live (live : s.Live) : step s = liveStep s := by
  obtain loaded | running := live
  · simp only [step, stepOnce, loaded]
  · simp only [step, stepOnce, running]

/-- With no blocked `read` and no abort due, a live run does one cycle. -/
theorem liveStep_eq_cycle (ready : s.waiting = false) (noAbort : s.abortIn ≠ some 0) :
    liveStep s = cycle s.countDown := by
  have notDue : ¬ s.AbortDue := by simp [State.AbortDue, ready, noAbort]
  simp [liveStep, notDue, advance, ready]

theorem cycle_eq_dispatch (hpc : s.pc = .addr n) (inCode : n < s.codeSize) (decoded : decodeWord (s.wordAt n) = some i) :
    cycle s = dispatch i (s.begin.fetched n) := by
  simp only [cycle, hpc, if_pos inCode, decodeAndDispatch, decoded]

theorem step_eq_dispatch (live : s.Live) (ready : s.waiting = false) (noAbort : s.abortIn ≠ some 0)
    (hpc : s.pc = .addr n) (inCode : n < s.codeSize) (decoded : decodeWord (s.wordAt n) = some i) :
    step s = dispatch i (s.countDown.begin.fetched n) := by
  rw [step_of_live live, liveStep_eq_cycle ready noAbort]
  exact cycle_eq_dispatch (s := s.countDown) hpc inCode decoded

theorem dispatch_of_next (h : exec i s.forceR0 = .next t) : dispatch i s = .next t.forceR0 := by
  simp only [dispatch, h, afterDispatch]

end Fetch

/-! ### The meaning of a data word (R161) -/

theorem exec_data (w : Word) (s : State) : exec (.data w) s = .next (s.fail .invalidOpcode (some (.data w)) none) := rfl

theorem dispatch_data (w : Word) (s : State) :
    dispatch (.data w) s = .next (s.forceR0.fail .invalidOpcode (some (.data w)) none).forceR0 :=
  dispatch_of_next (exec_data w s.forceR0)

/-- Settles O56: no entry before the wildcard is `data`, the meaning fails without a test, and the fetch has put the word
in IR and its address in lpc before the failure records them. -/
theorem dataWordFails : Obligations.DataWordFails := by
  refine ⟨fun w miss => Encoding.decodeWord_eq_data_of_miss miss, fun w s => ?meaning, ?cycle⟩
  case meaning => exact ⟨_, _, exec_data w s, s.fail_failsBy _ _ _, s.fail_fault _ _ _, rfl, rfl⟩
  case cycle =>
    rintro w s n live ready noAbort hpc inCode rfl decoded
    have failing := (step_eq_dispatch live ready noAbort hpc inCode decoded).trans (dispatch_data _ _)
    have fetchedIr : (s.countDown.begin.fetched n).ir = some (s.wordAt n) := rfl
    exact ⟨_, _, failing, rfl, rfl, rfl, rfl, fetchedIr, rfl⟩

end Sys2Proof.Machine
end

section
/-! PROOFS. The load: the words of an accepted image are listed from address 0, every other address still holds
DATA_INIT, and every field but memory and codeSize is as after reset (70_reset_and_hazards.md R186, R191). -/

namespace Sys2Proof.Machine

@[simp] theorem State.load_mem (words : List Word) : (State.load words).mem = imageCells 0 words := rfl
@[simp] theorem State.load_regs (words : List Word) : (State.load words).regs = Vector.replicate 16 0 := rfl

/-! ### Memory after the load -/

/-- The cells of an image laid from address `a` are its words in order, and there is none past the last word. -/
theorem lookupCell_imageCells (words : List Word) (a k : Nat) :
    lookupCell (imageCells a words) (a + k) = words[k]? := by
  induction words generalizing a k with
  | nil => rfl
  | cons w rest ih =>
    cases k with
    | zero => simp [imageCells, lookupCell]
    | succ k =>
      have shifted : a + (k + 1) = a + 1 + k := by omega
      have notHead : a ≠ a + 1 + k := by omega
      simp [imageCells, lookupCell, shifted, notHead, ih]

theorem lookupCell_imageCells_zero (words : List Word) (k : Nat) : lookupCell (imageCells 0 words) k = words[k]? := by
  simpa using lookupCell_imageCells words 0 k

theorem State.wordAt_load_of_lt {words : List Word} {k : Nat} (h : k < words.length) :
    (State.load words).wordAt k = words[k] := by
  simp [State.wordAt, lookupCell_imageCells_zero, h]

theorem State.wordAt_load_of_le {words : List Word} {k : Nat} (h : words.length ≤ k) :
    (State.load words).wordAt k = Config.dataInit k := by
  simp [State.wordAt, lookupCell_imageCells_zero, h]

/-! ### The start of a run -/

/-- Settles O17: memory by looking the image's cells up, the registers because the load zeroes them, and each other field
by what the load sets it to. -/
theorem loadEstablishesTheStart : Obligations.LoadEstablishesTheStart := by
  intro ws _ _
  refine ⟨rfl, rfl, fun k h => State.wordAt_load_of_lt h, fun k h _ => State.wordAt_load_of_le h, fun x => ?registers,
    rfl, rfl, rfl, rfl, rfl, rfl⟩
  case registers => simp only [State.load_regs, Vector.getElem_replicate]

end Sys2Proof.Machine
end

section
/-! PROOFS. Decode and encode agree: the word of an instruction is written out nibble by nibble, so that the first-match
lookup and the extraction of fields become arithmetic on four numbers below 16 (30_encoding.md R76 to R109). -/

namespace Sys2Proof.Encoding

open Sys2Proof.Machine

/-! ### Words as four nibbles -/

section Nibbles

variable {a b c d p q r t : Nat}

theorem nibbles_toNat (ha : a < 16) (hb : b < 16) (hc : c < 16) (hd : d < 16) :
    (nibbles a b c d).toNat = ((a * 16 + b) * 16 + c) * 16 + d := by
  rw [nibbles, BitVec.toNat_ofNat, Nat.mod_eq_of_lt (by omega)]
  omega

theorem land_nibble_cons (u v : Nat) (ha : a < 16) (hp : p < 16) :
    (u * 16 + a) &&& (v * 16 + p) = (u &&& v) * 16 + (a &&& p) := by
  have hi : ((u * 16 + a) &&& (v * 16 + p)) / 2 ^ 4 = _ := Nat.and_div_two_pow
  have lo : ((u * 16 + a) &&& (v * 16 + p)) % 2 ^ 4 = _ := Nat.and_mod_two_pow
  rw [show (u * 16 + a) / 2 ^ 4 = u by omega, show (v * 16 + p) / 2 ^ 4 = v by omega] at hi
  rw [show (u * 16 + a) % 2 ^ 4 = a by omega, show (v * 16 + p) % 2 ^ 4 = p by omega] at lo
  omega

theorem lor_nibble_cons (u v : Nat) (ha : a < 16) (hp : p < 16) :
    (u * 16 + a) ||| (v * 16 + p) = (u ||| v) * 16 + (a ||| p) := by
  have hi : ((u * 16 + a) ||| (v * 16 + p)) / 2 ^ 4 = _ := Nat.or_div_two_pow
  have lo : ((u * 16 + a) ||| (v * 16 + p)) % 2 ^ 4 = _ := Nat.or_mod_two_pow
  rw [show (u * 16 + a) / 2 ^ 4 = u by omega, show (v * 16 + p) / 2 ^ 4 = v by omega] at hi
  rw [show (u * 16 + a) % 2 ^ 4 = a by omega, show (v * 16 + p) % 2 ^ 4 = p by omega] at lo
  omega

theorem nibbles_and (ha : a < 16) (hb : b < 16) (hc : c < 16) (hd : d < 16) (hp : p < 16) (hq : q < 16) (hr : r < 16)
    (ht : t < 16) : nibbles a b c d &&& nibbles p q r t = nibbles (a &&& p) (b &&& q) (c &&& r) (d &&& t) := by
  have bound {u : Nat} (hu : u < 16) (v : Nat) : u &&& v < 16 := Nat.and_le_left.trans_lt hu
  apply BitVec.eq_of_toNat_eq
  rw [BitVec.toNat_and, nibbles_toNat ha hb hc hd, nibbles_toNat hp hq hr ht,
    nibbles_toNat (bound ha p) (bound hb q) (bound hc r) (bound hd t)]
  simp only [land_nibble_cons _ _ hb hq, land_nibble_cons _ _ hc hr, land_nibble_cons _ _ hd ht]

theorem nibbles_or (ha : a < 16) (hb : b < 16) (hc : c < 16) (hd : d < 16) (hp : p < 16) (hq : q < 16) (hr : r < 16)
    (ht : t < 16) : nibbles a b c d ||| nibbles p q r t = nibbles (a ||| p) (b ||| q) (c ||| r) (d ||| t) := by
  have bound {u v : Nat} (hu : u < 16) (hv : v < 16) : u ||| v < 16 := Nat.or_lt_two_pow (n := 4) hu hv
  apply BitVec.eq_of_toNat_eq
  rw [BitVec.toNat_or, nibbles_toNat ha hb hc hd, nibbles_toNat hp hq hr ht,
    nibbles_toNat (bound ha hp) (bound hb hq) (bound hc hr) (bound hd ht)]
  simp only [lor_nibble_cons _ _ hb hq, lor_nibble_cons _ _ hc hr, lor_nibble_cons _ _ hd ht]

theorem nibbles_ushiftRight_four (ha : a < 16) (hb : b < 16) (hc : c < 16) (hd : d < 16) :
    nibbles a b c d >>> 4 = nibbles 0 a b c := by
  apply BitVec.eq_of_toNat_eq
  rw [BitVec.toNat_ushiftRight, nibbles_toNat ha hb hc hd, nibbles_toNat (by omega) ha hb hc, Nat.shiftRight_eq_div_pow]
  omega

theorem nibbles_ushiftRight_eight (ha : a < 16) (hb : b < 16) (hc : c < 16) (hd : d < 16) :
    nibbles a b c d >>> 8 = nibbles 0 0 a b := by
  apply BitVec.eq_of_toNat_eq
  rw [BitVec.toNat_ushiftRight, nibbles_toNat ha hb hc hd, nibbles_toNat (by omega) (by omega) ha hb,
    Nat.shiftRight_eq_div_pow]
  omega

theorem nibbles_shiftLeft_four (ha : a < 16) (hb : b < 16) (hc : c < 16) (hd : d < 16) :
    nibbles a b c d <<< 4 = nibbles b c d 0 := by
  apply BitVec.eq_of_toNat_eq
  rw [BitVec.toNat_shiftLeft, nibbles_toNat ha hb hc hd, nibbles_toNat hb hc hd (by omega), Nat.shiftLeft_eq]
  omega

theorem nibbles_eq_iff (ha : a < 16) (hb : b < 16) (hc : c < 16) (hd : d < 16) (hp : p < 16) (hq : q < 16) (hr : r < 16)
    (ht : t < 16) : nibbles a b c d = nibbles p q r t ↔ a = p ∧ b = q ∧ c = r ∧ d = t := by
  rw [← BitVec.toNat_inj, nibbles_toNat ha hb hc hd, nibbles_toNat hp hq hr ht]
  omega

theorem ofNat_eq_nibbles (k : Nat) :
    BitVec.ofNat 16 k = nibbles (k / 4096 % 16) (k / 256 % 16) (k / 16 % 16) (k % 16) := by
  apply BitVec.eq_of_toNat_eq
  rw [nibbles_toNat (by omega) (by omega) (by omega) (by omega), BitVec.toNat_ofNat]
  omega

theorem exists_eq_nibbles (w : Word) : ∃ a b c d : Reg, w = nibbles a b c d := by
  have bound (k : Nat) : k % 16 < 16 := Nat.mod_lt k (by decide)
  refine ⟨⟨_, bound (w.toNat / 4096)⟩, ⟨_, bound (w.toNat / 256)⟩, ⟨_, bound (w.toNat / 16)⟩, ⟨_, bound w.toNat⟩, ?_⟩
  rw [← ofNat_eq_nibbles, BitVec.ofNat_toNat, BitVec.setWidth_eq]

theorem nibblesByte_eq_nibbles (a b : Nat) (n : Imm8) :
    nibblesByte a b n = nibbles a b (n.toNat / 16) (n.toNat % 16) := by
  have split : a * 4096 + b * 256 + n.toNat / 16 * 16 + n.toNat % 16 = a * 4096 + b * 256 + n.toNat := by omega
  rw [nibblesByte, nibbles, split]

theorem nibblesByte_ofNat (a b : Nat) (c d : Reg) : nibblesByte a b (BitVec.ofNat 8 (c * 16 + d)) = nibbles a b c d := by
  have value : (BitVec.ofNat 8 (c.val * 16 + d.val)).toNat = c * 16 + d := by
    rw [BitVec.toNat_ofNat]; omega
  have hi : (c.val * 16 + d.val) / 16 = c := by omega
  have lo : (c.val * 16 + d.val) % 16 = d := by omega
  rw [nibblesByte_eq_nibbles, value, hi, lo]

theorem reg_shiftLeft_twelve (x : Reg) : BitVec.ofNat 16 x.val <<< 12 = nibbles x 0 0 0 := by
  revert x; decide

theorem byte_shiftLeft_eight (n : Imm8) : n.setWidth 16 <<< 8 = nibbles (n.toNat / 16) (n.toNat % 16) 0 0 := by
  apply BitVec.eq_of_toNat_eq
  rw [nibbles_toNat (by omega) (by omega) (by omega) (by omega), BitVec.toNat_shiftLeft, BitVec.toNat_setWidth,
    Nat.shiftLeft_eq]
  omega

theorem regField_nibbles (x : Reg) (hb : b < 16) (hc : c < 16) (hd : d < 16) : regField (nibbles x b c d) 12 = x := by
  have value := nibbles_toNat x.isLt hb hc hd
  have field : (regField (nibbles x b c d) 12).val = (nibbles x b c d).toNat / 4096 % 16 := by
    rw [← Nat.shiftRight_eq_div_pow _ 12]; exact BitVec.extractLsb'_toNat ..
  have leading : (nibbles x b c d).toNat / 4096 = x := by omega
  exact Fin.ext (by rw [field, leading, Nat.mod_eq_of_lt x.isLt])

theorem byteField_nibbles (n : Imm8) (hc : c < 16) (hd : d < 16) :
    (nibbles (n.toNat / 16) (n.toNat % 16) c d).extractLsb' 8 8 = n := by
  apply BitVec.eq_of_toNat_eq
  rw [BitVec.extractLsb'_toNat, nibbles_toNat (by omega) (by omega) hc hd, Nat.shiftRight_eq_div_pow]
  omega

end Nibbles

/-! ### The word of an instruction, bit for bit (R80 to R104) -/

section Patterns

variable {a b c d : Nat}

/-- The nibbles of an instruction's word as R80 to R104 draw them. -/
def pattern (i : Instr) : Word :=
  match i with
  | .halt => nibbles 0 0 0 0
  | .read x => nibbles 0 x 0 1
  | .write x => nibbles 0 x 0 2
  | .jumpi x => nibbles 0 x 0 3
  | .loadn x n => nibblesByte 1 x n
  | .load x n => nibblesByte 2 x n
  | .store x n => nibblesByte 3 x n
  | .loadi x y => nibbles 4 x y 0
  | .storei x y => nibbles 4 x y 1
  | .addn x n => nibblesByte 5 x n
  | .nop => nibbles 6 0 0 0
  | .mov x y => nibbles 6 x y 0
  | .add x y z => nibbles 6 x y z
  | .neg x z => nibbles 7 x 0 z
  | .sub x y z => nibbles 7 x y z
  | .mul x y z => nibbles 8 x y z
  | .div x y z => nibbles 9 x y z
  | .mod x y z => nibbles 10 x y z
  | .jump n => nibblesByte 11 0 n
  | .call x n => nibblesByte 11 x n
  | .jeqz x n => nibblesByte 12 x n
  | .jnez x n => nibblesByte 13 x n
  | .jgtz x n => nibblesByte 14 x n
  | .jltz x n => nibblesByte 15 x n
  | .data w => w

/-- The nibbles of an entry's match value that are not 0 anywhere in the table: the first and the last. -/
def fixedNibbles (m : Mnemonic) : Nat × Nat :=
  match m with
  | .halt | .data => (0, 0)
  | .read => (0, 1) | .write => (0, 2) | .jumpi => (0, 3)
  | .loadn => (1, 0) | .load => (2, 0) | .store => (3, 0)
  | .loadi => (4, 0) | .storei => (4, 1)
  | .addn => (5, 0)
  | .nop | .mov | .add => (6, 0)
  | .neg | .sub => (7, 0)
  | .mul => (8, 0) | .div => (9, 0) | .mod => (10, 0)
  | .jump | .call => (11, 0)
  | .jeqz => (12, 0) | .jnez => (13, 0) | .jgtz => (14, 0) | .jltz => (15, 0)

theorem opcodeBits_eq_nibbles (m : Mnemonic) : opcodeBits m = nibbles (fixedNibbles m).1 0 0 (fixedNibbles m).2 := by
  cases m <;> decide

theorem zero_eq_nibbles : (0 : Word) = nibbles 0 0 0 0 := rfl

/-- The encoder places the fields of every shape where the pattern shows them. -/
theorem encode_eq_pattern (i : Instr) : encode i = pattern i := by
  cases i
  all_goals
    simp (disch := omega) [pattern, encode, argShape, Instr.mnemonic, Instr.fields, opcodeBits_eq_nibbles, fixedNibbles,
      putFields, reg_shiftLeft_twelve, byte_shiftLeft_eight, nibblesByte_eq_nibbles, zero_eq_nibbles,
      nibbles_ushiftRight_four, nibbles_ushiftRight_eight, nibbles_or, -BitVec.ofNat_eq_ofNat]

theorem extractFields_pattern (i : Instr) : extractFields i.mnemonic (pattern i) = i.fields := by
  cases i
  all_goals
    simp (disch := omega) [pattern, extractFields, argShape, Instr.mnemonic, Instr.fields, takeFields, regField_nibbles,
      byteField_nibbles, nibblesByte_eq_nibbles, nibbles_shiftLeft_four, -BitVec.ofNat_eq_ofNat]

theorem buildInstr_fields (i : Instr) : buildInstr i.mnemonic i.fields = some i := by
  cases i <;> rfl

theorem land_fifteen (h : a < 16) : a &&& 15 = a := by
  rw [Nat.and_two_pow_sub_one_eq_mod a 4]; omega

theorem hits_nibbles (ha : a < 16) (hb : b < 16) (hc : c < 16) (hd : d < 16) (v k : Nat) (m : Mnemonic) :
    OpcodeRow.hits ⟨BitVec.ofNat 16 v, BitVec.ofNat 16 k, m⟩ (nibbles a b c d) =
      decide (a &&& k / 4096 % 16 = v / 4096 % 16 ∧ b &&& k / 256 % 16 = v / 256 % 16
        ∧ c &&& k / 16 % 16 = v / 16 % 16 ∧ d &&& k % 16 = v % 16) := by
  have bound {u : Nat} (hu : u < 16) (v : Nat) : u &&& v < 16 := Nat.and_le_left.trans_lt hu
  have small (k : Nat) : k % 16 < 16 := Nat.mod_lt k (by decide)
  rw [Bool.eq_iff_iff, hits_iff, decide_eq_true_iff, ofNat_eq_nibbles v, ofNat_eq_nibbles k,
    nibbles_and ha hb hc hd (small _) (small _) (small _) (small _),
    nibbles_eq_iff (bound ha _) (bound hb _) (bound hc _) (bound hd _) (small _) (small _) (small _) (small _)]

/-- The mnemonic that the first matching entry gives a word. -/
def mnemonicOf (a b c d : Nat) : Mnemonic :=
  match a with
  | 0 =>
    if b = 0 ∧ c = 0 ∧ d = 0 then .halt else if c = 0 ∧ d = 1 then .read else if c = 0 ∧ d = 2 then .write
    else if c = 0 ∧ d = 3 then .jumpi else .data
  | 1 => .loadn | 2 => .load | 3 => .store
  | 4 => if d = 0 then .loadi else if d = 1 then .storei else .data
  | 5 => .addn
  | 6 => if b = 0 ∧ c = 0 ∧ d = 0 then .nop else if d = 0 then .mov else .add
  | 7 => if c = 0 then .neg else .sub
  | 8 => .mul | 9 => .div | 10 => .mod
  | 11 => if b = 0 then .jump else .call
  | 12 => .jeqz | 13 => .jnez | 14 => .jgtz
  | _ => .jltz

theorem lookupRow_nibbles (ha : a < 16) (hb : b < 16) (hc : c < 16) (hd : d < 16) :
    (lookupRow opcodeTable (nibbles a b c d)).map OpcodeRow.mnemonic = some (mnemonicOf a b c d) := by
  simp only [lookupRow, opcodeTable, BitVec.ofNat_eq_ofNat, hits_nibbles ha hb hc hd, apply_ite (Option.map _),
    Option.map_some, Option.map_none]
  simp only [Nat.reduceDiv, Nat.reduceMod, land_fifteen ha, land_fifteen hb, land_fifteen hc, land_fifteen hd, Nat.and_zero,
    true_and, and_true, decide_eq_true_iff]
  interval_cases a
  all_goals simp [mnemonicOf, apply_ite some]

theorem unassigned_nibbles_iff (ha : a < 16) (hb : b < 16) (hc : c < 16) (hd : d < 16) :
    unassigned (nibbles a b c d) = true ↔ mnemonicOf a b c d = .data := by
  have value := nibbles_toNat ha hb hc hd
  have lead : (nibbles a b c d).toNat / 4096 = a := by omega
  have second : (nibbles a b c d).toNat / 256 % 16 = b := by omega
  have byte : (nibbles a b c d).toNat % 256 = c * 16 + d := by omega
  have last : (nibbles a b c d).toNat % 16 = d := by omega
  simp only [unassigned, Bool.or_eq_true, Bool.and_eq_true, beq_iff_eq, bne_iff_ne, decide_eq_true_iff, lead, second,
    byte, last]
  by_cases zero : a = 0
  · subst zero; simp only [mnemonicOf]; split_ifs <;> simp <;> omega
  by_cases four : a = 4
  · subst four; simp only [mnemonicOf]; split_ifs <;> simp <;> omega
  have never : mnemonicOf a b c d ≠ .data := by
    interval_cases a <;> simp_all [mnemonicOf, apply_ite (· = Mnemonic.data)]
  simp [zero, four, never]

/-- Of the terms with a condition, each is the first of its entries that its operands leave. -/
theorem lookupRow_pattern {i : Instr} (h : i.wellFormed = true) :
    (lookupRow opcodeTable (pattern i)).map OpcodeRow.mnemonic = some i.mnemonic := by
  cases i
  case data w =>
    obtain ⟨a, b, c, d, rfl⟩ := exists_eq_nibbles w
    rw [pattern, lookupRow_nibbles a.isLt b.isLt c.isLt d.isLt]
    exact congrArg some ((unassigned_nibbles_iff a.isLt b.isLt c.isLt d.isLt).mp h)
  all_goals
    simp only [Instr.wellFormed, Bool.or_eq_true, bne_iff_ne] at h
    simp only [pattern, nibblesByte_eq_nibbles]
    rw [lookupRow_nibbles (by omega) (by omega) (by omega) (by omega)]
    simp [mnemonicOf, Instr.mnemonic, imp_iff_not_or, h]

theorem decodeWord_pattern (i : Instr) (h : i.wellFormed = true) : decodeWord (pattern i) = some i := by
  obtain ⟨e, found, named⟩ := Option.map_eq_some_iff.mp (lookupRow_pattern h)
  rw [decodeWord, decodeWith, found]
  simp only [named, extractFields_pattern, buildInstr_fields]

/-- Every word is the pattern of the instruction that its first matching entry names. -/
theorem exists_pattern (w : Word) : ∃ i : Instr, i.wellFormed = true ∧ pattern i = w := by
  obtain ⟨a, b, c, d, rfl⟩ := exists_eq_nibbles w
  have data (h : mnemonicOf a b c d = .data) : ∃ i : Instr, i.wellFormed = true ∧ pattern i = nibbles a b c d :=
    ⟨.data _, (unassigned_nibbles_iff a.isLt b.isLt c.isLt d.isLt).mpr h, rfl⟩
  have byte := nibblesByte_ofNat a b c d
  let n : Imm8 := BitVec.ofNat 8 (c * 16 + d)
  obtain ⟨a, ha⟩ := a
  -- One case for each leading nibble, 0 to 15 in order, as the table of R80 to R104 groups them.
  interval_cases a
  · by_cases halt : b.val = 0 ∧ c.val = 0 ∧ d.val = 0
    · exact ⟨.halt, rfl, by simp only [pattern, halt]⟩
    by_cases system : c.val = 0 ∧ (d.val = 1 ∨ d.val = 2 ∨ d.val = 3)
    · obtain ⟨hc, hd | hd | hd⟩ := system
      exacts [⟨.read b, rfl, by simp only [pattern, hc, hd]⟩, ⟨.write b, rfl, by simp only [pattern, hc, hd]⟩,
        ⟨.jumpi b, rfl, by simp only [pattern, hc, hd]⟩]
    · exact data (by rw [mnemonicOf, if_neg halt, if_neg (by omega), if_neg (by omega), if_neg (by omega)])
  · exact ⟨.loadn b n, rfl, byte⟩
  · exact ⟨.load b n, rfl, byte⟩
  · exact ⟨.store b n, rfl, byte⟩
  · by_cases indirect : d.val = 0 ∨ d.val = 1
    · obtain hd | hd := indirect
      exacts [⟨.loadi b c, rfl, by simp only [pattern, hd]⟩, ⟨.storei b c, rfl, by simp only [pattern, hd]⟩]
    · exact data (by rw [mnemonicOf, if_neg (by omega), if_neg (by omega)])
  · exact ⟨.addn b n, rfl, byte⟩
  · by_cases hz : d = 0
    · subst hz
      by_cases hxy : b = 0 ∧ c = 0
      · obtain ⟨rfl, rfl⟩ := hxy; exact ⟨.nop, rfl, rfl⟩
      · exact ⟨.mov b c, by simpa [Instr.wellFormed, imp_iff_not_or] using hxy, rfl⟩
    · exact ⟨.add b c d, by simpa [Instr.wellFormed] using hz, rfl⟩
  · by_cases hy : c = 0
    · subst hy; exact ⟨.neg b d, rfl, rfl⟩
    · exact ⟨.sub b c d, by simpa [Instr.wellFormed] using hy, rfl⟩
  · exact ⟨.mul b c d, rfl, rfl⟩
  · exact ⟨.div b c d, rfl, rfl⟩
  · exact ⟨.mod b c d, rfl, rfl⟩
  · by_cases hx : b = 0
    · subst hx; exact ⟨.jump n, rfl, byte⟩
    · exact ⟨.call b n, by simpa [Instr.wellFormed] using hx, byte⟩
  · exact ⟨.jeqz b n, rfl, byte⟩
  · exact ⟨.jnez b n, rfl, byte⟩
  · exact ⟨.jgtz b n, rfl, byte⟩
  · exact ⟨.jltz b n, rfl, byte⟩

end Patterns

/-! ### Decode against encode (R76 to R79, R105 to R109) -/

/-- Settles O1: the first entry that matches an instruction's pattern is its own, and its fields are read back. -/
theorem decodeOfEncodeIsIdentity : Obligations.DecodeOfEncodeIsIdentity := fun i h =>
  (congrArg decodeWord (encode_eq_pattern i)).trans (decodeWord_pattern i h)

/-- Settles O2: every word is the pattern of a well-formed instruction, which O1's argument decodes. -/
theorem encodeOfDecodeIsIdentity : Obligations.EncodeOfDecodeIsIdentity := by
  intro w
  obtain ⟨i, wellFormed, rfl⟩ := exists_pattern w
  exact ⟨i, decodeWord_pattern i wellFormed, wellFormed, encode_eq_pattern i⟩

/-- Settles O3: each clause is the decoding of one instruction's pattern. -/
theorem patternsDecodeBitForBit : Obligations.PatternsDecodeBitForBit := fun x y z n w =>
  ⟨decodeWord_pattern .halt rfl, decodeWord_pattern (.read x) rfl, decodeWord_pattern (.write x) rfl,
    decodeWord_pattern (.jumpi x) rfl, decodeWord_pattern (.loadn x n) rfl, decodeWord_pattern (.load x n) rfl,
    decodeWord_pattern (.store x n) rfl, decodeWord_pattern (.loadi x y) rfl, decodeWord_pattern (.storei x y) rfl,
    decodeWord_pattern (.addn x n) rfl, decodeWord_pattern .nop rfl,
    fun h => decodeWord_pattern (.mov x y) (by simpa [Instr.wellFormed] using h),
    fun h => decodeWord_pattern (.add x y z) (by simpa [Instr.wellFormed] using h),
    decodeWord_pattern (.neg x z) rfl,
    fun h => decodeWord_pattern (.sub x y z) (by simpa [Instr.wellFormed] using h),
    decodeWord_pattern (.mul x y z) rfl, decodeWord_pattern (.div x y z) rfl, decodeWord_pattern (.mod x y z) rfl,
    decodeWord_pattern (.jump n) rfl,
    fun h => decodeWord_pattern (.call x n) (by simpa [Instr.wellFormed] using h),
    decodeWord_pattern (.jeqz x n) rfl, decodeWord_pattern (.jnez x n) rfl, decodeWord_pattern (.jgtz x n) rfl,
    decodeWord_pattern (.jltz x n) rfl, fun h => decodeWord_pattern (.data w) h⟩

/-- Settles O4, by running the DECODER on each word. -/
theorem sampleWordsDecode : Obligations.SampleWordsDecode := by
  unfold Obligations.SampleWordsDecode
  decide

/-- Settles O7: a decoded term is well-formed and encodes to its word, which for `data` says that the word is unassigned. -/
theorem unassignedWordsDecodeAsData : Obligations.UnassignedWordsDecodeAsData := by
  refine fun w v => ⟨⟨fun decoded => ?_, ?_⟩, fun s => ⟨_, exec_data w s, s.fail_failsBy _ _ _⟩⟩
  · obtain ⟨i, hi, wellFormed, encoded⟩ := encodeOfDecodeIsIdentity w
    obtain rfl : i = .data v := Option.some.inj (hi.symm.trans decoded)
    obtain rfl : v = w := encoded
    exact ⟨rfl, wellFormed⟩
  · rintro ⟨rfl, free⟩
    exact decodeWord_pattern (.data v) free

/-- Settles O10: a general spelling with an operand r0 has the pattern of its special one. -/
theorem equivalentSpellingsShareTheirWord : Obligations.EquivalentSpellingsShareTheirWord := by
  have same {i j : Instr} (h : pattern i = pattern j) : encode i = encode j := by
    rw [encode_eq_pattern, encode_eq_pattern, h]
  have special {i j : Instr} (h : pattern i = pattern j) (wf : j.wellFormed = true) : decodeWord (encode i) = some j := by
    rw [encode_eq_pattern, h, decodeWord_pattern j wf]
  exact ⟨same rfl, special rfl rfl,
    fun x y => ⟨same rfl, fun h => special rfl (by simpa [Instr.wellFormed] using h)⟩,
    fun x z => ⟨same rfl, special rfl rfl⟩, fun n => ⟨same rfl, special rfl rfl⟩, fun w => rfl⟩

/-- Settles O11, by running the DECODER and writing out the text of what it reads. -/
theorem readableFormExamples : Obligations.ReadableFormExamples := by
  unfold Obligations.ReadableFormExamples
  decide

/-! ### How many words are unassigned (R106) -/

theorem countP_range_mul (p : Nat → Bool) (k m : Nat) :
    (List.range (k * m)).countP p = ∑ i ∈ Finset.range k, (List.range m).countP (fun r => p (i * m + r)) := by
  induction k with
  | zero => simp
  | succ k ih =>
    rw [Nat.succ_mul, List.range_add, List.countP_append, List.countP_map, ih, Finset.sum_range_succ]
    rfl

/-- The unassigned words of a block of 256 that shares its first two nibbles. -/
theorem countP_unassigned_block {a b : Nat} (ha : a < 16) (hb : b < 16) :
    (List.range 256).countP (fun r => unassigned (BitVec.ofNat 16 (a * 4096 + (b * 256 + r)))) =
      if a = 0 then (if b = 0 then 252 else 253) else if a = 4 then 224 else 0 := by
  have value {r : Nat} (hr : r ∈ List.range 256) :
      unassigned (BitVec.ofNat 16 (a * 4096 + (b * 256 + r))) =
        (decide (a = 0 ∧ (b ≠ 0 ∧ r = 0 ∨ 4 ≤ r)) || decide (a = 4 ∧ 2 ≤ r % 16)) := by
    have small : r < 256 := List.mem_range.mp hr
    have word : (BitVec.ofNat 16 (a * 4096 + (b * 256 + r))).toNat = a * 4096 + (b * 256 + r) := by
      rw [BitVec.toNat_ofNat, Nat.mod_eq_of_lt (by omega)]
    rw [Bool.eq_iff_iff]
    simp only [unassigned, word, Bool.or_eq_true, Bool.and_eq_true, beq_iff_eq, bne_iff_ne, decide_eq_true_iff]
    omega
  rw [List.countP_congr (fun r hr => by rw [value hr])]
  rw [countP_range_mul _ 16 16]
  by_cases h0 : a = 0
  · by_cases hb0 : b = 0
    · subst h0 hb0; decide
    · simp only [h0, hb0, ne_eq, not_false_iff, true_and, if_true, if_false]; decide
  by_cases h4 : a = 4
  · simp only [h4, OfNat.ofNat_ne_zero, false_and, if_true, if_false]; decide
  · simp [h0, h4]

/-- Settles O8: the count is the sum over the 256 blocks of words that share their first two nibbles. -/
theorem unassignedWordsNumber7631 : Obligations.UnassignedWordsNumber7631 := by
  have nested := countP_range_mul (fun n => unassigned (BitVec.ofNat 16 n)) 16 4096
  have inner (a : Nat) := countP_range_mul (fun r => unassigned (BitVec.ofNat 16 (a * 4096 + r))) 16 256
  calc (List.range 65536).countP (fun n => unassigned (BitVec.ofNat 16 n))
      = ∑ a ∈ Finset.range 16, ∑ b ∈ Finset.range 16,
          (List.range 256).countP (fun r => unassigned (BitVec.ofNat 16 (a * 4096 + (b * 256 + r)))) :=
        nested.trans (Finset.sum_congr rfl fun a _ => inner a)
    _ = ∑ a ∈ Finset.range 16, ∑ b ∈ Finset.range 16,
          if a = 0 then (if b = 0 then 252 else 253) else if a = 4 then 224 else 0 :=
        Finset.sum_congr rfl fun a ha => Finset.sum_congr rfl fun b hb =>
          countP_unassigned_block (Finset.mem_range.mp ha) (Finset.mem_range.mp hb)
    _ = 7631 := by decide

end Sys2Proof.Encoding
end

section
/-! PROOFS. The CODEC's addition is exact, and its conversion of a value is the string of that value modulo 2^w
(30_encoding.md R63 to R69, R78). -/

namespace Sys2Proof.Encoding

/-! ### A bit string is determined by its length and its value (R67) -/

theorem bitStringToInt_lt (b : BitString) : bitStringToInt b < 2 ^ b.length := by
  induction b with
  | nil => simp
  | cons c rest ih =>
    have bit := c.toNat_le
    rw [bitStringToInt_cons, List.length_cons, pow_succ]
    nlinarith

theorem eq_of_bitStringToInt_eq {a b : BitString} (length : a.length = b.length)
    (value : bitStringToInt a = bitStringToInt b) : a = b := by
  induction a generalizing b with
  | nil => exact (List.length_eq_zero_iff.mp length.symm).symm
  | cons x xs ih =>
    obtain _ | ⟨y, ys⟩ := b
    · cases length
    have tails : xs.length = ys.length := Nat.succ.inj length
    have hx := bitStringToInt_lt xs
    have hy := bitStringToInt_lt ys
    rw [bitStringToInt_cons, bitStringToInt_cons, tails] at value
    rw [tails] at hx
    cases x <;> cases y
    case false.true | true.false => simp only [Bool.toNat_false, Bool.toNat_true] at value; omega
    case false.false | true.true => exact congrArg _ (ih tails (Nat.add_left_cancel value))

theorem eq_binaryString {b : BitString} {w n : Nat} (length : b.length = w) (value : bitStringToInt b = n) :
    b = binaryString w n := by
  subst length value
  refine eq_of_bitStringToInt_eq (binaryString_length ..).symm ?_
  rw [bitStringToInt_binaryString, Nat.mod_eq_of_lt (bitStringToInt_lt b)]

/-! ### Ripple-carry addition (R64) -/

/-- Column by column: the sum bits with the carry weighing above them are the sum of the two values. -/
theorem rippleColumns_exact (a b : BitString) (length : a.length = b.length) :
    (rippleColumns a b).1.length = a.length
      ∧ bitStringToInt (rippleColumns a b).1 + (rippleColumns a b).2.toNat * 2 ^ a.length
        = bitStringToInt a + bitStringToInt b := by
  induction a generalizing b with
  | nil =>
    obtain rfl : b = [] := List.length_eq_zero_iff.mp length.symm
    exact ⟨rfl, rfl⟩
  | cons x xs ih =>
    obtain _ | ⟨y, ys⟩ := b
    · cases length
    have tails : xs.length = ys.length := Nat.succ.inj length
    obtain ⟨columns, sum⟩ := ih ys tails
    refine ⟨congrArg (· + 1) columns, ?_⟩
    have column : x.toNat + y.toNat + (rippleColumns xs ys).2.toNat
        = (decide ((x.toNat + y.toNat + (rippleColumns xs ys).2.toNat) % 2 = 1)).toNat
          + 2 * (decide ((x.toNat + y.toNat + (rippleColumns xs ys).2.toNat) / 2 = 1)).toNat := by
      cases x <;> cases y <;> cases (rippleColumns xs ys).2 <;> rfl
    simp only [rippleColumns, bitStringToInt_cons, columns, List.length_cons, pow_succ, ← tails]
    linear_combination sum - 2 ^ xs.length * column

theorem zeroExtend_value (l : Nat) (a : BitString) : bitStringToInt (zeroExtend l a) = bitStringToInt a := by
  have zeros (k : Nat) : bitStringToInt (List.replicate k false ++ a) = bitStringToInt a := by
    induction k with
    | zero => rfl
    | succ k ih => simpa [List.replicate_succ] using ih
  exact zeros _

theorem zeroExtend_length_of_le {l : Nat} {a : BitString} (h : a.length ≤ l) : (zeroExtend l a).length = l := by
  simp [zeroExtend, h]

/-- The last carry decides whether the string of a sum is one bit longer. -/
theorem keepCarry_eq_binaryString {bits : BitString} {carry : Bool} {l n : Nat} (length : bits.length = l)
    (sum : bitStringToInt bits + carry.toNat * 2 ^ l = n) :
    (if carry then true :: bits else bits) = binaryString (if n < 2 ^ l then l else l + 1) n := by
  have small := bitStringToInt_lt bits
  rw [length] at small
  cases carry with
  | false =>
    have value : bitStringToInt bits = n := by simpa using sum
    have fits : n < 2 ^ l := by omega
    rw [if_neg Bool.false_ne_true, if_pos fits]
    exact eq_binaryString length value
  | true =>
    have value : bitStringToInt (true :: bits) = n := by rw [bitStringToInt_cons, length, ← sum, add_comm]
    have longer : ¬ n < 2 ^ l := by rw [← sum]; simp
    rw [if_pos rfl, if_neg longer]
    exact eq_binaryString (congrArg (· + 1) length) value

/-- Settles O12: the padded operands keep their values, and the columns add these up. -/
theorem binaryAddIsExact : Obligations.BinaryAddIsExact := by
  intro a b
  have ha := zeroExtend_length_of_le (le_max_left a.length b.length)
  have hb := zeroExtend_length_of_le (le_max_right a.length b.length)
  obtain ⟨columns, sum⟩ := rippleColumns_exact _ _ (ha.trans hb.symm)
  rw [ha] at columns sum
  rw [zeroExtend_value, zeroExtend_value] at sum
  exact keepCarry_eq_binaryString columns sum

/-! ### Conversion to two's complement (R65, R66, R68) -/

theorem bitStringToInt_map_not (b : BitString) :
    bitStringToInt (b.map not) + bitStringToInt b + 1 = 2 ^ b.length := by
  induction b with
  | nil => rfl
  | cons c rest ih =>
    rw [List.map_cons, bitStringToInt_cons, bitStringToInt_cons, List.length_map, List.length_cons, pow_succ]
    cases c <;> simp <;> omega

theorem intToTwosComplement_outside {w : Nat} {v : Int} (h : w < 1 ∨ v ≤ -(2 ^ w : Int) ∨ (2 ^ w : Int) ≤ v) :
    intToTwosComplement v w = .error .outOfDomain := if_pos h

/-- The complement of the absolute value and one more is what is missing to 2^w. -/
theorem intToTwosComplement_neg {w : Nat} {v : Int} (hw : 1 ≤ w) (lo : -(2 ^ w : Int) < v) (neg : v < 0) :
    intToTwosComplement v w = .ok (binaryString w (2 ^ w + v).toNat) := by
  have pos : (0 : Int) < 2 ^ w := by positivity
  have inDomain : ¬ (w < 1 ∨ v ≤ -(2 ^ w : Int) ∨ (2 ^ w : Int) ≤ v) := by omega
  have cast : ((2 ^ w : Nat) : Int) = 2 ^ w := by norm_cast
  have complement := bitStringToInt_map_not (binaryString w v.natAbs)
  have size : v.natAbs < 2 ^ w := by omega
  rw [binaryString_length, bitStringToInt_binaryString, Nat.mod_eq_of_lt size] at complement
  have one : bitStringToInt [true] = 1 := rfl
  have sum : bitStringToInt ((binaryString w v.natAbs).map not) + bitStringToInt [true] = (2 ^ w + v).toNat := by
    omega
  have fits : (2 ^ w + v).toNat < 2 ^ w := by omega
  have longer : max ((binaryString w v.natAbs).map not).length [true].length = w := by simp [hw]
  rw [intToTwosComplement, if_neg inDomain, if_neg (by omega), binaryAddIsExact, sum, longer, if_pos fits]

theorem head?_binaryString {w n : Nat} (hw : 1 ≤ w) : (binaryString w n).head? = some (n.testBit (w - 1)) := by
  cases w with
  | zero => cases hw
  | succ w => rfl

/-- Settles O15: the string is the sum of the complement and 1, whose top bit is set from 2^(w-1) up. -/
theorem negativeValuesAreComplemented : Obligations.NegativeValuesAreComplemented := by
  refine fun w v => ⟨fun hw lo neg => ⟨intToTwosComplement_neg hw lo neg, fun top => ?_⟩, intToTwosComplement_outside⟩
  obtain ⟨w, rfl⟩ := Nat.exists_eq_add_of_le' hw
  rw [Nat.add_sub_cancel] at top
  have cast : ((2 ^ w : Nat) : Int) = 2 ^ w := by norm_cast
  have double : (2 ^ (w + 1) : Int) = 2 * 2 ^ w := by ring
  have lower : 2 ^ w ≤ (2 ^ (w + 1) + v).toNat := by omega
  have upper : (2 ^ (w + 1) + v).toNat < 2 ^ (w + 1) := by rw [pow_succ]; omega
  rw [head?_binaryString hw, Nat.add_sub_cancel, Nat.testBit_of_two_pow_le_and_two_pow_add_one_gt lower upper]

/-! ### The round trip (R69, R78) -/

/-- In its domain the conversion gives the `w`-bit string of the value modulo 2^w. -/
theorem intToTwosComplement_emod {w : Nat} {v : Int} (hw : 1 ≤ w) (lo : -(2 ^ w : Int) < v) (hi : v < 2 ^ w) :
    intToTwosComplement v w = .ok (binaryString w (v % 2 ^ w).toNat) := by
  by_cases neg : v < 0
  · have shifted : v % 2 ^ w = 2 ^ w + v := by
      rw [← Int.add_emod_left, Int.emod_eq_of_lt (by omega) (by omega)]
    rw [shifted, intToTwosComplement_neg hw lo neg]
  · obtain ⟨n, rfl⟩ := Int.eq_ofNat_of_zero_le (not_lt.mp neg)
    rw [Int.emod_eq_of_lt (by omega) hi, Int.toNat_natCast]
    exact intToTwosComplement_natCast hw (by exact_mod_cast hi)

theorem bitStringToInt_binaryString_emod (w : Nat) (v : Int) :
    (bitStringToInt (binaryString w (v % 2 ^ w).toNat) : Int) = v % 2 ^ w := by
  have pos : (0 : Int) < 2 ^ w := by positivity
  have lower := Int.emod_nonneg v pos.ne'
  have upper := Int.emod_lt_of_pos v pos
  have cast : ((2 ^ w : Nat) : Int) = 2 ^ w := by norm_cast
  rw [bitStringToInt_binaryString, Nat.mod_eq_of_lt (by omega), Int.toNat_of_nonneg lower]

/-- The signed reading of the word with a value's residue is the value. -/
theorem toInt_ofNat_of_emod {w n : Nat} {v : Int} (lo : -(2 ^ w : Int) ≤ 2 * v) (hi : 2 * v < 2 ^ w)
    (value : (n : Int) = v % 2 ^ w) : (BitVec.ofNat w n).toInt = v := by
  have cast : ((2 ^ w : Nat) : Int) = 2 ^ w := by norm_cast
  rw [BitVec.toInt_ofNat', value, ← cast, Int.emod_bmod]
  exact Int.bmod_eq_of_le_mul_two (by omega) (by omega)

/-- Settles O16: both readings come from the string's value, which is v modulo 2^w. -/
theorem codecRoundTrip : Obligations.CodecRoundTrip := by
  constructor
  · intro v lo hi
    have value := bitStringToInt_binaryString_emod 16 v
    exact ⟨_, intToTwosComplement_emod (by decide) (by omega) (by omega), binaryString_length .., value,
      toInt_ofNat_of_emod (by omega) (by omega) value⟩
  · intro v lo hi
    have value := bitStringToInt_binaryString_emod 8 v
    exact ⟨_, intToTwosComplement_emod (by decide) (by omega) (by omega), binaryString_length .., value,
      toInt_ofNat_of_emod (by omega) (by omega) value⟩

theorem sext8_eq (n : Imm8) : sext8 n = (n.toNat : Int) - (if 128 ≤ n.toNat then 256 else 0) := by
  rw [sext8, BitVec.toInt_eq_toNat_cond]
  split_ifs <;> omega

/-- Settles O9: the field's value and its signed reading are the same modulo 2^8. -/
theorem signedFieldIsTheCodecsReading : Obligations.SignedFieldIsTheCodecsReading := by
  intro n
  have signed := sext8_eq n
  have range := Machine.sext8_range n
  have value : bitStringToInt (binaryString 8 n.toNat) = n.toNat := by
    rw [bitStringToInt_binaryString, Nat.mod_eq_of_lt n.isLt]
  have residue : (sext8 n % 2 ^ 8).toNat = n.toNat := by omega
  refine ⟨by rw [value, signed], ?_⟩
  rw [intToTwosComplement_emod (by decide) (by omega) (by omega), residue]

end Sys2Proof.Encoding
end

section
/-! PROOFS. What each instruction writes and what it leaves unchanged: a rule for each update of the state, an equation
for each meaning, and the statements about one instruction (41_system_io.md to 44_arithmetic.md). -/

namespace Sys2Proof.Machine

/-! ### Rules of the updates -/

theorem State.setReg_writesReg (s : State) (x : Reg) (v : Int) : s.WritesReg (s.setReg x v) x v := by
  refine ⟨fun hx => ?_, fun y hy => ?_, s.setReg_frame x v, s.wordAt_setReg x v⟩
  · simp [State.setReg_regs, hx]
  · rw [State.setReg_regs]
    split_ifs with hx
    · rfl
    · have apart : x.val ≠ y.val := fun e => (hy.resolve_right hx) (Fin.ext e.symm)
      exact Vector.getElem_set_ne x.isLt y.isLt apart

theorem State.memWrite_writesWord (s : State) (a : Nat) (v : Int) : s.WritesWord (s.memWrite a v) a (int16 v) := by
  refine ⟨?_, fun b hb => ?_, rfl⟩
  · rw [State.wordAt_memWrite, if_pos rfl]
  · rw [State.wordAt_memWrite, if_neg hb.symm]

theorem State.memRead_memWrite_same (s : State) (a : Nat) {v : Int} (h : InRange v) : (s.memWrite a v).memRead a = v := by
  rw [State.memRead, State.wordAt_memWrite, if_pos rfl, sval_int16 v h]

/-! ### The meanings as equations -/

section Meanings

variable (x y z : Reg) (n : Imm8) (s : State)

theorem exec_halt : exec .halt s = .next s.stop := rfl
theorem exec_write : exec (.write x) s = .next (s.emit (s.reg x)) := rfl
theorem exec_jumpi : exec (.jumpi x) s = checkTarget (.jumpi x) (s.reg x) s (s.setPc (s.reg x).toNat) := rfl
theorem exec_jump : exec (.jump n) s = checkTarget (.jump n) (zext8 n) s (s.setPc n.toNat) := rfl
theorem exec_call :
    exec (.call x n) s = checkTarget (.call x n) (zext8 n) s ((s.setReg x s.pcIndex).setPc n.toNat) := rfl
theorem exec_loadn : exec (.loadn x n) s = .next (s.setReg x (sext8 n)) := rfl
theorem exec_load : exec (.load x n) s = loadFrom (.load x n) x (directAddress n) s := rfl
theorem exec_store : exec (.store x n) s = storeTo (.store x n) x (directAddress n) s := rfl
theorem exec_loadi : exec (.loadi x y) s = loadFrom (.loadi x y) x (s.indirectAddress y) s := rfl
theorem exec_storei : exec (.storei x y) s = storeTo (.storei x y) x (s.indirectAddress y) s := rfl
theorem exec_addn : exec (.addn x n) s = writeChecked (.addn x n) x (s.reg x + sext8 n) s := rfl
theorem exec_nop : exec .nop s = .next s := rfl
theorem exec_mov : exec (.mov x y) s = writeChecked (.mov x y) x (s.reg y + 0) s := rfl
theorem exec_add : exec (.add x y z) s = writeChecked (.add x y z) x (s.reg y + s.reg z) s := rfl
theorem exec_neg : exec (.neg x z) s = writeChecked (.neg x z) x (0 - s.reg z) s := rfl
theorem exec_sub : exec (.sub x y z) s = writeChecked (.sub x y z) x (s.reg y - s.reg z) s := rfl
theorem exec_mul : exec (.mul x y z) s = writeChecked (.mul x y z) x (s.reg y * s.reg z) s := rfl

theorem exec_read_of_none (h : takeAnswer s.input = none) : exec (.read x) s = .next s.block := by
  simp only [exec, execRead, h]

theorem exec_read_of_abort {rest : List HostAnswer} (h : takeAnswer s.input = some (.abort, rest)) :
    exec (.read x) s = .next (s.quit rest) := by
  simp only [exec, execRead, h]

theorem exec_read_of_value {v : Int} {rest : List HostAnswer} (h : takeAnswer s.input = some (.value v, rest)) :
    exec (.read x) s = .next ((s.unblock rest).setReg x v) := by
  simp only [exec, execRead, h]

theorem exec_div_of_ne (h : s.reg z ≠ 0) :
    exec (.div x y z) s = writeQuotient divOvfPolicy (.div x y z) x (Int.fdiv (s.reg y) (s.reg z)) s := if_neg h

theorem exec_mod_of_ne (h : s.reg z ≠ 0) :
    exec (.mod x y z) s = .next (s.setReg x (s.reg y - s.reg z * Int.fdiv (s.reg y) (s.reg z))) := if_neg h

theorem exec_of_zeroDivisor {i : Instr} (hi : i = .div x y z ∨ i = .mod x y z) (h : s.reg z = 0) :
    exec i s = .next (s.fail .divideByZero (some i) none) := by
  obtain rfl | rfl := hi
  · exact if_pos h
  · exact if_pos h

/-- The instructions whose exact result is checked, with that result. -/
theorem exec_checked {i : Instr} {r : Int}
    (hi : (i = .addn x n ∧ r = s.reg x + sext8 n) ∨ (i = .add x y z ∧ r = s.reg y + s.reg z) ∨ (i = .mov x y ∧ r = s.reg y)
      ∨ (i = .sub x y z ∧ r = s.reg y - s.reg z) ∨ (i = .neg x z ∧ r = -s.reg z)
      ∨ (i = .mul x y z ∧ r = s.reg y * s.reg z)) : exec i s = writeChecked i x r s := by
  obtain ⟨rfl, rfl⟩ | ⟨rfl, rfl⟩ | ⟨rfl, rfl⟩ | ⟨rfl, rfl⟩ | ⟨rfl, rfl⟩ | ⟨rfl, rfl⟩ := hi
  · exact exec_addn x n s
  · exact exec_add x y z s
  · rw [exec_mov, add_zero]
  · exact exec_sub x y z s
  · rw [exec_neg, zero_sub]
  · exact exec_mul x y z s

end Meanings

/-! ### System and I/O -/

/-- Settles O36: the meaning is the one update. -/
theorem haltStopsTheRun : Obligations.HaltStopsTheRun := exec_halt

/-- Settles O39: the meaning emits what the register reads as. -/
theorem writeEmitsTheRegister : Obligations.WriteEmitsTheRegister := exec_write

/-- Settles O37: the answers turned away do not count, so the first of the others decides. -/
theorem readTakesTheHostsAnswer : Obligations.ReadTakesTheHostsAnswer := by
  refine fun x s bad rest turnedAway => ⟨fun v inRange input => ?value, fun input => ?abort, fun input => ?none⟩
  case value =>
    have taken : takeAnswer s.input = some (.value v, rest) := by
      rw [input, takeAnswer_bad_append bad _ turnedAway, takeAnswer, if_pos inRange]
    exact ⟨_, exec_read_of_value x s taken, State.setReg_writesReg (s.unblock rest) x v⟩
  case abort =>
    exact exec_read_of_abort x s (by rw [input, takeAnswer_bad_append bad _ turnedAway, takeAnswer])
  case none => exact exec_read_of_none x s (takeAnswer_eq_none.mpr (input ▸ turnedAway))

/-! ### Control transfer -/

/-- Settles O40: the register's value is the target as it stands. -/
theorem jumpiGoesToTheRegistersValue : Obligations.JumpiGoesToTheRegistersValue := by
  refine fun x s => ⟨fun k legal value => ?_, fun bad => ?_⟩
  · rw [exec_jumpi, checkTarget_of_inCode (by rw [value]; omega), value, Int.toNat_natCast]
    rfl
  · exact ⟨_, checkTarget_of_not_inCode (by omega), s.fail_failsBy _ _ _⟩

theorem checkTarget_zext8_of_le {i : Instr} {n : Imm8} {s after : State} (bad : s.codeSize ≤ n.toNat) :
    checkTarget i (zext8 n) s after = .next (s.fail .jumpOutOfBounds (some i) (some (n.toNat : Int))) :=
  checkTarget_of_not_inCode (mt State.inCode_zext8_iff.mp bad.not_gt)

/-- Settles O41: an immediate is a legal target exactly when it is below codeSize. -/
theorem jumpGoesToTheImmediate : Obligations.JumpGoesToTheImmediate := fun n s =>
  ⟨fun legal => (exec_jump n s).trans (checkTarget_of_inCode (State.inCode_zext8_iff.mpr legal)),
    fun bad => ⟨_, (exec_jump n s).trans (checkTarget_zext8_of_le bad), s.fail_failsBy _ _ _⟩⟩

/-- Settles O42: behind the check of its target, the call writes its link register and then the pc. -/
theorem callLinksAndJumps : Obligations.CallLinksAndJumps := by
  refine fun x n p s hpc => ⟨fun legal => ?_, fun bad => ⟨_, checkTarget_zext8_of_le bad, s.fail_failsBy _ _ _⟩⟩
  have link : s.pcIndex = p := by rw [State.pcIndex, hpc]
  refine ⟨_, checkTarget_of_inCode (State.inCode_zext8_iff.mpr legal), ?_⟩
  rw [link]
  obtain ⟨written, others, frame, words⟩ := State.setReg_writesReg s x p
  exact ⟨written, others, congrArg (State.setPc · n.toNat) frame, words⟩

/-! ### Loads and stores -/

/-- Settles O44: the immediate's signed reading, by its two halves. -/
theorem loadnWritesTheSignedImmediate : Obligations.LoadnWritesTheSignedImmediate := by
  intro x n s
  have signed : (if n.toNat < 128 then (n.toNat : Int) else (n.toNat : Int) - 256) = sext8 n := by
    rw [Encoding.sext8_eq]; split_ifs <;> omega
  exact ⟨_, exec_loadn x n s, signed ▸ s.setReg_writesReg x _⟩

theorem loadFrom_checked (i : Instr) (x : Reg) (a : Int) (s : State) :
    ∃ t, loadFrom i x a s = .next t ∧ (¬ s.InData a → s.FailsBy t .loadOutOfBounds (some a))
      ∧ (s.InData a → t.run = s.run ∧ t.fault = s.fault) := by
  by_cases inData : s.InData a
  · exact ⟨_, loadFrom_of_inData inData, fun h => absurd inData h, fun _ => ⟨s.setReg_run x _, s.setReg_fault x _⟩⟩
  · exact ⟨_, loadFrom_of_not_inData inData, fun _ => s.fail_failsBy _ _ _, fun h => absurd h inData⟩

theorem storeTo_checked (i : Instr) (x : Reg) (a : Int) (s : State) :
    ∃ t, storeTo i x a s = .next t ∧ (¬ s.InData a → s.FailsBy t .storeOutOfBounds (some a))
      ∧ (s.InData a → t.run = s.run ∧ t.fault = s.fault) := by
  by_cases inData : s.InData a
  · exact ⟨_, storeTo_of_inData inData, fun h => absurd inData h, fun _ => ⟨rfl, rfl⟩⟩
  · exact ⟨_, storeTo_of_not_inData inData, fun _ => s.fail_failsBy _ _ _, fun h => absurd h inData⟩

/-- Settles O45: the direct and the indirect form share one check, at the immediate and at the register's value. -/
theorem dataAccessesAreChecked : Obligations.DataAccessesAreChecked := by
  refine fun x y n s => ⟨fun i a hi => ?_, fun i a hi => ?_⟩
  · obtain ⟨rfl, rfl⟩ | ⟨rfl, rfl⟩ := hi
    · rw [exec_load]; exact loadFrom_checked (.load x n) x (directAddress n) s
    · rw [exec_loadi]; exact loadFrom_checked (.loadi x y) x (s.indirectAddress y) s
  · obtain ⟨rfl, rfl⟩ | ⟨rfl, rfl⟩ := hi
    · rw [exec_store]; exact storeTo_checked (.store x n) x (directAddress n) s
    · rw [exec_storei]; exact storeTo_checked (.storei x y) x (s.indirectAddress y) s

theorem loadFrom_writesReg (i : Instr) (x : Reg) (s : State) {a : Nat} (lower : s.codeSize ≤ a) (upper : a < 256) :
    ∃ t, loadFrom i x a s = .next t ∧ s.WritesReg t x (sval (s.wordAt a)) :=
  ⟨_, loadFrom_of_inData (a := a) ⟨by omega, by omega⟩, s.setReg_writesReg x _⟩

/-- Settles O46: an immediate is below 256 as it stands. -/
theorem loadsReadTheDataRegion : Obligations.LoadsReadTheDataRegion := by
  refine fun x y n s => ⟨fun lower => loadFrom_writesReg (.load x n) x s lower n.isLt, fun a lower upper address => ?_⟩
  rw [exec_loadi, State.indirectAddress, address]
  exact loadFrom_writesReg (.loadi x y) x s lower upper

theorem storeTo_writesWord (i : Instr) (x : Reg) {a : Int} {s : State} (inData : s.InData a) :
    ∃ t, storeTo i x a s = .next t ∧ s.WritesWord t a.toNat (int16 (s.reg x))
      ∧ (InRange (s.reg x) → t.memRead a.toNat = s.reg x) :=
  ⟨_, storeTo_of_inData inData, s.memWrite_writesWord _ _, fun inRange => s.memRead_memWrite_same _ inRange⟩

/-- Settles O47: both forms write through the same checked store. -/
theorem storesWriteTheDataRegion : Obligations.StoresWriteTheDataRegion := by
  refine fun x y n s => ⟨?direct, ?indirect⟩
  case direct => rintro a rfl lower upper; rw [exec_store]; exact storeTo_writesWord (.store x n) x ⟨lower, upper⟩
  case indirect => rintro a rfl lower upper; rw [exec_storei]; exact storeTo_writesWord (.storei x y) x ⟨lower, upper⟩

/-! ### Arithmetic -/

/-- Settles O48: every checked result in range is written. -/
theorem arithmeticWritesTheExactResult : Obligations.ArithmeticWritesTheExactResult :=
  fun x y z n s _ r hi inRange =>
    ⟨_, (exec_checked x y z n s hi).trans (writeChecked_of_inRange inRange), s.setReg_writesReg x r⟩

/-- Settles O49: every checked result out of range fails before the write. -/
theorem arithmeticOverflowFails : Obligations.ArithmeticOverflowFails :=
  fun x y z n s _ _ hi outOfRange =>
    ⟨_, (exec_checked x y z n s hi).trans (writeChecked_of_not_inRange outOfRange), s.fail_failsBy _ _ _⟩

/-- Settles O50: the sum of r0 and r0 is in range, and its write to r0 is lost. -/
theorem nopChangesNothing : Obligations.NopChangesNothing := exec_nop

/-- The floor quotient on integers is the floor of the rational quotient. -/
theorem floor_div_eq_fdiv {a b : Int} (hb : b ≠ 0) : ⌊(a : ℚ) / (b : ℚ)⌋ = Int.fdiv a b := by
  have split := Int.mul_fdiv_add_fmod a b
  obtain ⟨pos, neg⟩ := fmod_bounds a b
  rw [Int.floor_eq_iff]
  rcases lt_or_gt_of_ne hb with hneg | hpos
  · have h := neg hneg
    have lower : a ≤ Int.fdiv a b * b := by nlinarith
    have upper : (Int.fdiv a b + 1) * b < a := by nlinarith
    rw [le_div_iff_of_neg (by exact_mod_cast hneg), div_lt_iff_of_neg (by exact_mod_cast hneg)]
    exact ⟨by exact_mod_cast lower, by exact_mod_cast upper⟩
  · have h := pos hpos
    have lower : Int.fdiv a b * b ≤ a := by nlinarith
    have upper : a < (Int.fdiv a b + 1) * b := by nlinarith
    rw [le_div_iff₀ (by exact_mod_cast hpos), div_lt_iff₀ (by exact_mod_cast hpos)]
    exact ⟨by exact_mod_cast lower, by exact_mod_cast upper⟩

theorem fdiv_corner : Int.fdiv (-32768) (-1) = 32768 := rfl

/-- The only quotient of values in range that is out of range is that of the corner. -/
theorem fdiv_eq_iff_corner {a b : Int} (ha : InRange a) (hb : InRange b) (hz : b ≠ 0) :
    Int.fdiv a b = 32768 ↔ a = -32768 ∧ b = -1 := by
  constructor
  · intro q
    have split := Int.mul_fdiv_add_fmod a b
    rw [q] at split
    obtain ⟨pos, neg⟩ := fmod_bounds a b
    rcases lt_or_gt_of_ne hz with hneg | hpos
    · have h := neg hneg; omega
    · have h := pos hpos; omega
  · rintro ⟨rfl, rfl⟩; exact fdiv_corner

theorem writeQuotient_of_ne {policy : DivOvfPolicy} {i : Instr} {x : Reg} {q : Int} {s : State} (h : q ≠ 32768) :
    writeQuotient policy i x q s = .next (s.setReg x q) := if_neg h

/-- Settles O51: off the corner the quotient is in range and written. -/
theorem divWritesTheFloorQuotient : Obligations.DivWritesTheFloorQuotient := by
  intro x y z s hy hz divisor offCorner
  have fits : Int.fdiv (s.reg y) (s.reg z) ≠ 32768 := mt (fdiv_eq_iff_corner hy hz divisor).mp offCorner
  rw [floor_div_eq_fdiv divisor]
  exact ⟨_, (exec_div_of_ne x y z s divisor).trans (writeQuotient_of_ne fits), s.setReg_writesReg x _⟩

/-- Settles O52: the quotient -32768 div -1 is 32768, and no other quotient of values in range leaves the range. -/
theorem divisionCornerFollowsThePolicy : Obligations.DivisionCornerFollowsThePolicy := by
  refine ⟨fun a b ha hb divisor => ?_, fun x y z s hy hz => ?_, fun i x s => ⟨?_, ?_, ?_⟩⟩
  · rw [floor_div_eq_fdiv divisor, ← fdiv_eq_iff_corner ha hb divisor]
    constructor
    · intro h; by_contra q; exact h (fdiv_inRange ha divisor q)
    · intro q; rw [q]; decide
  · have divisor : s.reg z ≠ 0 := by rw [hz]; decide
    refine ⟨_, (exec_div_of_ne x y z s divisor).trans ?_, s.fail_failsBy _ (some (.div x y z)) _⟩
    rw [hy, hz, fdiv_corner]; rfl
  · exact ⟨_, rfl, s.fail_failsBy _ _ _⟩
  · exact ⟨_, rfl, s.setReg_writesReg x _⟩
  · exact ⟨_, rfl, s.setReg_writesReg x _⟩

/-- Settles O53: what the meaning subtracts leaves the floor remainder. -/
theorem modWritesTheFloorRemainder : Obligations.ModWritesTheFloorRemainder := by
  intro x y z s divisor
  have split := Int.mul_fdiv_add_fmod (s.reg y) (s.reg z)
  have remainder : s.reg y - s.reg z * Int.fdiv (s.reg y) (s.reg z) = Int.fmod (s.reg y) (s.reg z) := by omega
  refine ⟨_, _, exec_mod_of_ne x y z s divisor, s.setReg_writesReg x _, by rw [floor_div_eq_fdiv divisor], ?_⟩
  rw [remainder]
  exact fmod_bounds (s.reg y) (s.reg z)

/-- Settles O54: the divisor is tested before anything is computed. -/
theorem zeroDivisorFails : Obligations.ZeroDivisorFails := fun x y z s _ hi zero =>
  ⟨_, exec_of_zeroDivisor x y z s hi zero, s.fail_failsBy _ _ _⟩

/-! ### Specialisations (R105) -/

theorem State.sameButSpelling_refl (s : State) : s.SameButSpelling s := ⟨rfl, rfl⟩

theorem State.fail_sameButSpelling (s : State) (c : FailCause) (i j : Option Instr) (target : Option Int) :
    (s.fail c i target).SameButSpelling (s.fail c j target) := ⟨rfl, rfl⟩

theorem writeChecked_sameButSpelling (i j : Instr) (x : Reg) (r : Int) (s : State) :
    ∃ t u, writeChecked i x r s = .next t ∧ writeChecked j x r s = .next u ∧ t.SameButSpelling u := by
  by_cases inRange : InRange r
  · exact ⟨_, _, writeChecked_of_inRange inRange, writeChecked_of_inRange inRange, State.sameButSpelling_refl _⟩
  · exact ⟨_, _, writeChecked_of_not_inRange inRange, writeChecked_of_not_inRange inRange,
      s.fail_sameButSpelling _ _ _ _⟩

theorem checkTarget_sameButSpelling (i j : Instr) (a : Int) (s after : State) :
    ∃ t u, checkTarget i a s after = .next t ∧ checkTarget j a s after = .next u ∧ t.SameButSpelling u := by
  by_cases legal : s.InCode a
  · exact ⟨_, _, checkTarget_of_inCode legal, checkTarget_of_inCode legal, State.sameButSpelling_refl _⟩
  · exact ⟨_, _, checkTarget_of_not_inCode legal, checkTarget_of_not_inCode legal, s.fail_sameButSpelling _ _ _ _⟩

/-- Settles O55: with r0 in its place the general instruction runs the same checked write or jump. -/
theorem specialisationsComputeTheSame : Obligations.SpecialisationsComputeTheSame := by
  rintro x y z n s i j (⟨rfl, rfl⟩ | ⟨rfl, rfl⟩ | ⟨rfl, rfl⟩ | ⟨rfl, rfl⟩)
  · exact writeChecked_sameButSpelling .nop (.add 0 0 0) 0 (s.reg 0 + s.reg 0) s
  · exact writeChecked_sameButSpelling (.mov x y) (.add x y 0) x (s.reg y + 0) s
  · exact writeChecked_sameButSpelling (.neg x z) (.sub x 0 z) x (0 - s.reg z) s
  · exact checkTarget_sameButSpelling (.jump n) (.call 0 n) (zext8 n) s (s.setPc n.toNat)

end Sys2Proof.Machine
end

section
/-! PROOFS. The invariant of the machine: each update keeps it under the condition its meaning has checked, so every
meaning and every step keeps it (10_state.md R43; 40_cycle.md R110 to R117). -/

namespace Sys2Proof.Machine

/-! ### What a sound state that goes on running looks like -/

theorem State.Live.run_ne_halted {s : State} (live : s.Live) : s.run ≠ .halted := by
  obtain h | h := live <;> simp [h]

theorem State.Live.run_ne_failed {s : State} (live : s.Live) : s.run ≠ .failed := by
  obtain h | h := live <;> simp [h]

theorem State.Live.run_ne_aborted {s : State} (live : s.Live) : s.run ≠ .aborted := by
  obtain h | h := live <;> simp [h]

theorem State.Sound.pc_ne_halt {s : State} (sound : s.Sound) (live : s.Live) : s.pc ≠ .halt :=
  mt sound.pc.1.mp live.run_ne_halted

theorem State.Sound.fault_isSome_eq_false {s : State} (sound : s.Sound) (live : s.Live) : ¬ s.fault.isSome = true :=
  mt sound.fault.mp live.run_ne_failed

theorem State.Sound.pcIndex_le {s : State} (sound : s.Sound) : s.pcIndex ≤ 256 := by
  unfold State.pcIndex
  split
  · rename_i n hpc; exact (sound.pc.2 n hpc).trans sound.codeSize
  · exact Nat.zero_le _

/-! ### Each update keeps the invariant -/

section Updates

variable {s : State}

theorem State.setReg_regs_zero (s : State) (x : Reg) (v : Int) : (s.setReg x v).regs[0] = s.regs[0] := by
  obtain ⟨-, others, -, -⟩ := s.setReg_writesReg x v
  have kept : (s.setReg x v).regs[(0 : Reg).val] = s.regs[(0 : Reg).val] := others 0 (ne_or_eq 0 x |>.imp_right Eq.symm)
  exact kept

theorem State.Sound.setReg (sound : s.Sound) (x : Reg) {v : Int} (inRange : InRange v) : (s.setReg x v).Sound := by
  have zero := (s.setReg_regs_zero x v).trans sound.r0
  have range : (s.setReg x v).RegsInRange := by
    intro r hr
    simp only [State.setReg_regs]
    split_ifs
    · exact sound.regs r hr
    · rw [Vector.getElem_set]
      split_ifs
      exacts [inRange, sound.regs r hr]
  rw [s.setReg_frame x v] at zero range ⊢
  exact { sound with r0 := zero, regs := range }

theorem State.Sound.memWrite (sound : s.Sound) {a : Nat} (ha : a < 256) (v : Int) : (s.memWrite a v).Sound :=
  { sound with
    mem := s.memWrite_wf a v sound.mem ha
    code := fun b hb => lookupCell_insertCell_isSome s.mem a b (int16 v) (sound.code b hb) }

theorem State.Sound.setPc (sound : s.Sound) (live : s.Live) {n : Nat} (hn : n ≤ s.codeSize) : (s.setPc n).Sound :=
  { sound with
    pc := ⟨⟨fun h => (Pc.noConfusion h), fun h => absurd h live.run_ne_halted⟩, fun _ h => Pc.addr.inj h ▸ hn⟩ }

theorem State.Sound.emit (sound : s.Sound) {v : Int} (inRange : InRange v) : (s.emit v).Sound :=
  { sound with
    out := List.forall_mem_append.mpr ⟨sound.out, List.forall_mem_singleton.mpr inRange⟩ }

theorem State.Sound.stop (sound : s.Sound) (live : s.Live) (ready : s.waiting = false) : s.stop.Sound :=
  { sound with
    pc := ⟨⟨fun _ => rfl, fun _ => rfl⟩, fun _ h => Pc.noConfusion h⟩
    fault := ⟨fun h => absurd h (sound.fault_isSome_eq_false live), fun h => RunState.noConfusion h⟩
    waiting := fun h => absurd h (ready ▸ Bool.false_ne_true) }

theorem State.Sound.fail (sound : s.Sound) (live : s.Live) (ready : s.waiting = false) (c : FailCause)
    (who : Option Instr) (target : Option Int) : (s.fail c who target).Sound :=
  { sound with
    pc := ⟨⟨fun h => absurd h (sound.pc_ne_halt live), fun h => RunState.noConfusion h⟩, sound.pc.2⟩
    fault := ⟨fun _ => rfl, fun _ => rfl⟩
    waiting := fun h => absurd h (ready ▸ Bool.false_ne_true) }

theorem State.Sound.hostAborts (sound : s.Sound) (live : s.Live) : s.hostAborts.Sound :=
  { sound with
    pc := ⟨⟨fun h => absurd h (sound.pc_ne_halt live), fun h => RunState.noConfusion h⟩, sound.pc.2⟩
    fault := ⟨fun h => absurd h (sound.fault_isSome_eq_false live), fun h => RunState.noConfusion h⟩
    waiting := fun h => Bool.noConfusion h }

theorem State.Sound.block (sound : s.Sound) (running : s.run = .running) {x : Reg} (reads : s.irInstr = some (.read x)) :
    s.block.Sound :=
  { sound with waiting := fun _ => ⟨running, x, reads⟩ }

theorem State.Sound.unblock (sound : s.Sound) (rest : List HostAnswer) : (s.unblock rest).Sound :=
  { sound with waiting := fun h => Bool.noConfusion h }

/-- The queue of answers is the host's and no part of the invariant. -/
theorem State.Sound.quit (sound : s.Sound) (live : s.Live) (rest : List HostAnswer) : (s.quit rest).Sound :=
  { sound.hostAborts live with }

theorem State.Sound.countDown (sound : s.Sound) : s.countDown.Sound := { sound with }

theorem State.Sound.begin (sound : s.Sound) (live : s.Live) : s.begin.Sound :=
  { sound with
    pc := ⟨⟨fun h => absurd h (sound.pc_ne_halt live), fun h => RunState.noConfusion h⟩, sound.pc.2⟩
    fault := ⟨fun h => absurd h (sound.fault_isSome_eq_false live), fun h => RunState.noConfusion h⟩
    waiting := fun h => ⟨rfl, (sound.waiting h).2⟩ }

theorem State.Sound.fetched (sound : s.Sound) (live : s.Live) (ready : s.waiting = false) {n : Nat}
    (inCode : n < s.codeSize) : (s.fetched n).Sound :=
  { sound.setPc live (Nat.succ_le_of_lt inCode) with
    lpc := fun _ h => Option.some.inj h ▸ inCode
    waiting := fun h => absurd h (ready ▸ Bool.false_ne_true) }

end Updates

/-! ### Every meaning and every step keeps the invariant -/

theorem Effect.sound {i : Instr} {s u : State} (effect : Effect i s u) (sound : s.Sound) (running : s.run = .running)
    (decoded : s.irInstr = some i) : u.Sound := by
  have live : s.Live := .inr running
  have ready (notRead : ∀ x, i ≠ .read x) : s.waiting = false := by
    rw [← Bool.not_eq_true]
    intro waiting
    obtain ⟨-, x, reads⟩ := sound.waiting waiting
    exact notRead x (Option.some.inj (decoded.symm.trans reads))
  cases effect with
  | register x v inRange => exact sound.setReg x (inRange sound.regs)
  | memory a v inData => exact sound.memWrite (by omega) v
  | unchanged => exact sound
  | jump a inCode => exact sound.setPc live (by omega)
  | link x a inCode =>
    have index := sound.pcIndex_le
    have linked := sound.setReg x (v := s.pcIndex) ⟨by omega, by omega⟩
    exact linked.setPc (by rw [State.Live, s.setReg_run]; exact live) (by rw [s.setReg_codeSize]; omega)
  | output x => exact sound.emit (State.reg_inRange sound.regs x)
  | halt isHalt => exact sound.stop live (ready fun x => by rw [isHalt]; exact Instr.noConfusion)
  | failure c a notRead => exact sound.fail live (ready notRead) c _ a
  | blocked x isRead => exact sound.block running (isRead ▸ decoded)
  | answered x v rest isRead inRange => exact (sound.unblock rest).setReg x inRange
  | aborted x rest isRead => exact sound.quit live rest

theorem exec_sound {i : Instr} {s u : State} (h : exec i s.forceR0 = .next u) (sound : s.Sound)
    (running : s.run = .running) (decoded : s.irInstr = some i) : u.forceR0.Sound := by
  rw [s.forceR0_of_zero sound.r0] at h
  have kept := (exec_effect h).sound sound running decoded
  rwa [u.forceR0_of_zero kept.r0]

/-- Settles O21: each way a step can go runs updates that keep the invariant; no fetched word is undecodable. -/
theorem stepKeepsSound : Obligations.StepKeepsSound := by
  intro s t sound stepped
  obtain ⟨live, way⟩ := step_cases stepped
  cases way with
  | abort due => exact sound.hostAborts live
  | outside target noAbort ready hpc => exact (sound.countDown.begin live).fail (.inr rfl) ready _ _ _
  | dispatched n i u noAbort ready hpc inCode decoded executed =>
    exact exec_sound executed ((sound.countDown.begin live).fetched (.inr rfl) ready inCode) rfl decoded
  | undecodable n noAbort ready hpc inCode undecoded =>
    obtain ⟨i, decoded⟩ := Encoding.decodeWord_total (s.wordAt n)
    exact absurd (decoded.symm.trans undecoded) (Option.some_ne_none i)
  | resumed x u noAbort waiting answered reads executed =>
    exact exec_sound executed sound.countDown (sound.waiting waiting).1 reads

/-! ### The states in which a run begins -/

theorem State.reset_regsInRange : State.reset.RegsInRange := by
  intro r hr
  have zero : State.reset.regs[r] = 0 := Vector.getElem_replicate hr
  rw [zero]; decide

theorem State.load_sound {words : List Word} (h : words.length ≤ 256) : (State.load words).Sound where
  r0 := rfl
  regs := State.reset_regsInRange
  out := List.forall_mem_nil _
  codeSize := h
  mem := load_mem_wf words h
  code := fun a ha => by
    rw [State.load_mem, lookupCell_imageCells_zero, List.getElem?_eq_getElem ha, Option.isSome_some]
  pc := ⟨⟨fun h => Pc.noConfusion h, fun h => RunState.noConfusion h⟩, fun _ hpc => Pc.addr.inj hpc ▸ Nat.zero_le _⟩
  lpc := fun _ hlpc => absurd hlpc.symm (Option.some_ne_none _)
  fault := ⟨fun h => Bool.noConfusion h, fun h => RunState.noConfusion h⟩
  waiting := fun hw => Bool.noConfusion hw

/-- Settles O20: the reset state is the load of no words. -/
theorem resetIsSound : Obligations.ResetIsSound := State.load_sound (words := []) (Nat.zero_le _)

theorem parseImage_length {lines : List Line} {words : List Word} (h : parseImage lines = .ok words) :
    1 ≤ words.length ∧ words.length ≤ 256 := by
  unfold parseImage at h
  split at h
  · cases h
  · split_ifs at h with hempty hlong
    cases h
    omega

theorem loadProgram_eq_ok_iff (lines : List Line) (s : State) :
    loadProgram (some lines) = .ok s ↔ ∃ words, parseImage lines = .ok words ∧ s = State.load words := by
  cases h : parseImage lines with
  | error e => simp [loadProgram, h]
  | ok words => simp [loadProgram, h, eq_comm]

/-- Settles O19: an accepted image has 1 to 256 words, which the load places. -/
theorem loadedStateIsSound : Obligations.LoadedStateIsSound := by
  intro image s loaded
  obtain _ | lines := image
  · cases loaded
  · obtain ⟨words, accepted, rfl⟩ := (loadProgram_eq_ok_iff lines s).mp loaded
    obtain ⟨lower, upper⟩ := parseImage_length accepted
    exact ⟨State.load_sound upper, lower, upper⟩

end Sys2Proof.Machine
end

section
/-! PROOFS. One step: when none is possible, which meaning it runs, and what the placing of a word makes it run
(40_cycle.md R110 to R124; 41_system_io.md R127). -/

namespace Sys2Proof.Machine

/-! ### Which steps are possible (R30, R110, R199) -/

/-- Settles O23: only a live run steps. -/
theorem terminalStatesHaveNoStep : Obligations.TerminalStatesHaveNoStep := by
  intro s t terminal stepped
  obtain ⟨(live : s.Live), -⟩ := step_cases stepped
  obtain h | h | h := terminal
  · exact live.run_ne_halted h
  · exact live.run_ne_failed h
  · exact live.run_ne_aborted h

theorem State.live_of_not_terminal {s : State} (h : ¬ s.Terminal) : s.Live := by
  cases run : s.run <;> simp_all [State.Terminal, State.Live]

theorem loadFrom_next (i : Instr) (x : Reg) (a : Int) (s : State) : ∃ t, loadFrom i x a s = .next t := by
  obtain ⟨t, h, -⟩ := loadFrom_checked i x a s
  exact ⟨t, h⟩

theorem storeTo_next (i : Instr) (x : Reg) (a : Int) (s : State) : ∃ t, storeTo i x a s = .next t := by
  obtain ⟨t, h, -⟩ := storeTo_checked i x a s
  exact ⟨t, h⟩

theorem checkTarget_next (i : Instr) (a : Int) (s after : State) : ∃ t, checkTarget i a s after = .next t := by
  obtain ⟨t, -, h, -⟩ := checkTarget_sameButSpelling i i a s after
  exact ⟨t, h⟩

theorem writeChecked_next (i : Instr) (x : Reg) (r : Int) (s : State) : ∃ t, writeChecked i x r s = .next t := by
  obtain ⟨t, -, h, -⟩ := writeChecked_sameButSpelling i i x r s
  exact ⟨t, h⟩

theorem writeQuotient_next (policy : DivOvfPolicy) (i : Instr) (x : Reg) (q : Int) (s : State) :
    ∃ t, writeQuotient policy i x q s = .next t := by
  by_cases corner : q = 32768
  · subst corner; cases policy <;> exact ⟨_, rfl⟩
  · exact ⟨_, writeQuotient_of_ne corner⟩

/-- No meaning stops the machine without a next state (R165). -/
theorem exec_next (i : Instr) (s : State) : ∃ t, exec i s = .next t := by
  cases i with
  | halt => exact ⟨_, exec_halt s⟩
  | read x =>
    match taken : takeAnswer s.input with
    | none => exact ⟨_, exec_read_of_none x s taken⟩
    | some (.abort, rest) => exact ⟨_, exec_read_of_abort x s taken⟩
    | some (.value v, rest) => exact ⟨_, exec_read_of_value x s taken⟩
  | write x => exact ⟨_, exec_write x s⟩
  | jumpi x => exact checkTarget_next ..
  | loadn x n => exact ⟨_, exec_loadn x n s⟩
  | load x n => exact loadFrom_next ..
  | store x n => exact storeTo_next ..
  | loadi x y => exact loadFrom_next ..
  | storei x y => exact storeTo_next ..
  | addn x n => exact writeChecked_next ..
  | nop => exact ⟨_, exec_nop s⟩
  | mov x y => exact writeChecked_next ..
  | add x y z => exact writeChecked_next ..
  | neg x z => exact writeChecked_next ..
  | sub x y z => exact writeChecked_next ..
  | mul x y z => exact writeChecked_next ..
  | div x y z =>
    by_cases zero : s.reg z = 0
    · exact ⟨_, exec_of_zeroDivisor x y z s (.inl rfl) zero⟩
    · rw [exec_div_of_ne x y z s zero]; exact writeQuotient_next ..
  | mod x y z =>
    by_cases zero : s.reg z = 0
    · exact ⟨_, exec_of_zeroDivisor x y z s (.inr rfl) zero⟩
    · exact ⟨_, exec_mod_of_ne x y z s zero⟩
  | jump n => exact checkTarget_next ..
  | call x n => exact checkTarget_next ..
  | jeqz x n => exact checkTarget_next ..
  | jnez x n => exact checkTarget_next ..
  | jgtz x n => exact checkTarget_next ..
  | jltz x n => exact checkTarget_next ..
  | data w => exact ⟨_, exec_data w s⟩

theorem dispatch_next (i : Instr) (s : State) : ∃ t, dispatch i s = .next t := by
  obtain ⟨t, h⟩ := exec_next i s.forceR0
  exact ⟨_, dispatch_of_next h⟩

theorem cycle_of_outside {s : State} {n : Nat} (hpc : s.pc = .addr n) (outside : s.codeSize ≤ n) :
    cycle s = .next (s.begin.fail .pcOutOfBounds s.irInstr (some n)) := by
  simp only [cycle, hpc, if_neg outside.not_gt]

theorem cycle_next (s : State) : ∃ t, cycle s = .next t := by
  cases hpc : s.pc with
  | halt => exact ⟨s.begin.fail .pcOutOfBounds s.irInstr none, by simp only [cycle, hpc]⟩
  | addr n =>
    by_cases inCode : n < s.codeSize
    · obtain ⟨i, decoded⟩ := Encoding.decodeWord_total (s.wordAt n)
      rw [cycle_eq_dispatch hpc inCode decoded]
      exact dispatch_next i _
    · exact ⟨_, cycle_of_outside hpc (not_lt.mp inCode)⟩

theorem liveStep_of_due {s : State} (due : s.AbortDue) : liveStep s = .next s.hostAborts := if_pos due

theorem liveStep_eq_resumeRead {s : State} (notDue : ¬ s.AbortDue) (waiting : s.waiting = true) :
    liveStep s = resumeRead s.countDown := by
  rw [liveStep, if_neg notDue, advance, State.countDown_waiting, if_pos waiting]

theorem resumeRead_of_none {s : State} {x : Reg} (reads : s.irInstr = some (.read x))
    (silent : takeAnswer s.input = none) : resumeRead s = .fault .awaitingHost := by
  simp only [resumeRead, reads, silent, if_true]

theorem resumeRead_of_some {s : State} {x : Reg} (reads : s.irInstr = some (.read x))
    (answered : takeAnswer s.input ≠ none) : resumeRead s = dispatch (.read x) s := by
  simp only [resumeRead, reads, if_neg answered]

/-- Settles O22: a blocked `read` is the only live state that may have to wait, and every cycle has a next state. -/
theorem soundLiveStatesStep : Obligations.SoundLiveStatesStep := by
  intro s sound notTerminal
  rw [step_of_live (State.live_of_not_terminal notTerminal)]
  refine ⟨fun ⟨waiting, silent, noAbort⟩ => ?stuck, fun notStuck => ?steps⟩
  case stuck =>
    obtain ⟨-, x, reads⟩ := sound.waiting waiting
    have notDue : ¬ s.AbortDue := by simp [State.AbortDue, noAbort]
    rw [liveStep_eq_resumeRead notDue waiting]
    exact resumeRead_of_none (s := s.countDown) reads (takeAnswer_eq_none.mpr silent)
  case steps =>
    by_cases due : s.AbortDue
    · exact ⟨_, liveStep_of_due due⟩
    by_cases waiting : s.waiting = true
    · obtain ⟨-, x, reads⟩ := sound.waiting waiting
      have answered : takeAnswer s.input ≠ none := by
        intro silent
        by_cases noAbort : s.abortIn = none
        · exact notStuck ⟨waiting, takeAnswer_eq_none.mp silent, noAbort⟩
        · exact due (.inr ⟨waiting, silent, noAbort⟩)
      rw [liveStep_eq_resumeRead due waiting, resumeRead_of_some (s := s.countDown) reads answered]
      exact dispatch_next _ _
    · rw [liveStep_eq_cycle (Bool.not_eq_true _ ▸ waiting) fun now => due (.inl now)]
      exact cycle_next _

/-! ### Which meaning a step runs (R110 to R117) -/

/-- Settles O24: the dispatch of the decoded instruction, with the state of step 2 written out. -/
theorem stepRunsTheDecodedInstruction : Obligations.StepRunsTheDecodedInstruction := by
  intro s n i live ready noAbort hpc inCode decoded
  rw [step_eq_dispatch live ready noAbort hpc inCode decoded]
  rfl

/-- Settles O25: the failure of step 1, before anything is fetched. -/
theorem pcOutsideCodeFails : Obligations.PcOutsideCodeFails := by
  intro s n live ready noAbort hpc outside
  refine ⟨s.countDown.begin.fail .pcOutOfBounds s.irInstr (some (n : Int)), ?step, ?failure, _, rfl, rfl, rfl, rfl, ?unset,
    ?decoded⟩
  case step =>
    rw [step_of_live live, liveStep_eq_cycle ready noAbort]
    exact cycle_of_outside (s := s.countDown) hpc outside
  case failure => exact ⟨rfl, ⟨_, rfl, rfl, rfl⟩, rfl, fun _ => rfl⟩
  case unset =>
    intro unset
    have no : s.irInstr = none := by simp only [State.irInstr, unset]
    rw [no]
    exact ⟨rfl, rfl⟩
  case decoded =>
    intro w i ir decoded
    have previous : s.irInstr = some i := by simp only [State.irInstr, ir, decoded]
    rw [previous]
    exact ⟨rfl, rfl⟩

/-- Settles O32: the abort that is due comes before anything else. -/
theorem hostAbortEndsTheRun : Obligations.HostAbortEndsTheRun := by
  intro s live due
  rw [← takeAnswer_eq_none] at due
  rw [step_of_live live, liveStep_of_due due]
  rfl

/-- Settles O38: the blocked `read` runs on the state as it waits, whose x[0] is 0 already. -/
theorem blockedReadWaitsForTheHost : Obligations.BlockedReadWaitsForTheHost := by
  intro x s bad rest running waiting notNow reads zero turnedAway
  rw [step_of_live (.inr running)]
  have noZero : s.countDown.forceR0 = s.countDown := s.countDown.forceR0_of_zero zero
  have resumed {a : HostAnswer} {u : State} (input : takeAnswer s.input = some (a, rest))
      (executed : exec (.read x) s.countDown = .next u) : liveStep s = .next u.forceR0 := by
    have answered : takeAnswer s.input ≠ none := by rw [input]; exact Option.some_ne_none _
    have notDue : ¬ s.AbortDue := by simp [State.AbortDue, notNow, answered]
    rw [liveStep_eq_resumeRead notDue waiting, resumeRead_of_some (s := s.countDown) reads answered]
    exact dispatch_of_next (noZero.symm ▸ executed)
  refine ⟨fun input noAbort => ?stuck, fun input abort => ?aborts, fun v inRange input => ?value, fun input => ?quits⟩
  case stuck =>
    have notDue : ¬ s.AbortDue := by simp [State.AbortDue, noAbort]
    rw [liveStep_eq_resumeRead notDue waiting]
    exact resumeRead_of_none (s := s.countDown) reads (takeAnswer_eq_none.mpr (input ▸ turnedAway))
  case aborts =>
    rw [liveStep_of_due (.inr ⟨waiting, takeAnswer_eq_none.mpr (input ▸ turnedAway), abort⟩)]
    rfl
  case value =>
    have taken : takeAnswer s.input = some (.value v, rest) := by
      rw [input, takeAnswer_bad_append bad _ turnedAway, takeAnswer, if_pos inRange]
    have zeroAfter : ((s.countDown.unblock rest).setReg x v).regs[0] = 0 := (State.setReg_regs_zero _ x v).trans zero
    refine ⟨_, resumed taken (exec_read_of_value x s.countDown taken), ?_⟩
    rw [State.forceR0_of_zero _ zeroAfter]
    exact State.setReg_writesReg (s.countDown.unblock rest) x v
  case quits =>
    have taken : takeAnswer s.input = some (.abort, rest) := by
      rw [input, takeAnswer_bad_append bad _ turnedAway, takeAnswer]
    rw [resumed taken (exec_read_of_abort x s.countDown taken), (s.countDown.quit rest).forceR0_of_zero zero]
    rfl

/-! ### Placing a word (log entries 7 and 21) -/

theorem State.placeWord_wordAt (s : State) (w : Word) (a : Nat) :
    (s.placeWord w).wordAt a = if s.placeAddress = a then w else s.wordAt a := by
  by_cases h : s.placeAddress = a <;> simp [State.wordAt, State.placeWord, lookupCell_insertCell, h]

theorem State.placeWord_codeSize (s : State) (w : Word) :
    (s.placeWord w).codeSize = max s.codeSize (s.placeAddress + 1) := by
  simp only [State.placeWord]
  split_ifs <;> omega

theorem State.placeWord_live (s : State) (w : Word) : (s.placeWord w).Live := by
  by_cases live : s.Live
  · have kept : (s.placeWord w).run = s.run := if_pos live
    simpa only [State.Live, kept] using live
  · exact .inr (if_neg live)

theorem State.placeWord_abortIn (s : State) (w : Word) :
    (s.placeWord w).abortIn = if s.abortIn = some 0 then none else s.abortIn := rfl

theorem decodeWord_of_decodeTableWord {w : Nat} {i : Instr} (small : w < 65536) (h : decodeTableWord 16 w = some i) :
    decodeWord (BitVec.ofNat 16 w) = some i := by
  rwa [decodeTableWord, if_pos (le_refl 16), Nat.mod_eq_of_lt (show w < 2 ^ 16 from small)] at h

/-- Settles O35: the placed word is what the next cycle fetches at the place address. -/
theorem placedWordRunsNext : Obligations.PlacedWordRunsNext := by
  intro s w i small decoded
  let placed := s.placeWord (BitVec.ofNat 16 w)
  have word : placed.wordAt s.placeAddress = BitVec.ofNat 16 w := by rw [State.placeWord_wordAt, if_pos rfl]
  have inCode : s.placeAddress < placed.codeSize := by rw [State.placeWord_codeSize]; omega
  have notNow : placed.abortIn ≠ some 0 := by rw [State.placeWord_abortIn]; split_ifs with now <;> simp [now]
  have counted : placed.abortIn.map (· - 1) = if s.abortIn = some 0 then none else s.abortIn.map (· - 1) := by
    rw [State.placeWord_abortIn, apply_ite (Option.map _)]; rfl
  have fetched : s.withFetchWord 16 w = placed := by
    rw [State.withFetchWord, Nat.mod_eq_of_lt (show w < 2 ^ 16 from small)]
  refine ⟨(placed.countDown.begin.fetched s.placeAddress).forceR0, rfl, rfl, congrArg some word, rfl, rfl, rfl, rfl, rfl,
    rfl, fun r => State.reg_forceR0 _ r, word, fun a ha => ?others, State.placeWord_codeSize s (BitVec.ofNat 16 w), counted, ?step⟩
  case others => exact (State.placeWord_wordAt s _ a).trans (if_neg ha.symm)
  case step =>
    rw [fetched, step_eq_dispatch (s.placeWord_live _) rfl notNow rfl inCode
      (word.symm ▸ decodeWord_of_decodeTableWord small decoded)]
    rfl

end Sys2Proof.Machine
end

section
/-! PROOFS. What a step can change: the effects of a meaning, read off field by field, and the ways a step can go
(40_cycle.md R120; 60_exceptions.md R165 to R176). -/

namespace Sys2Proof.Machine

/-! ### What a step can change -/

theorem Effect.code_kept {i : Instr} {s u : State} (effect : Effect i s u) :
    u.codeSize = s.codeSize ∧ ∀ a, a < s.codeSize → u.wordAt a = s.wordAt a := by
  cases effect with
  | register x v => exact ⟨s.setReg_codeSize x v, fun a _ => s.wordAt_setReg x v a⟩
  | memory a v inData =>
    exact ⟨rfl, fun b hb => by rw [State.wordAt_memWrite, if_neg (by omega)]⟩
  | link x a => exact ⟨s.setReg_codeSize x _, fun b _ => s.wordAt_setReg x _ b⟩
  | answered x v rest => exact ⟨State.setReg_codeSize _ x v, fun a _ => State.wordAt_setReg _ x v a⟩
  | unchanged | jump | output | halt | failure | blocked | aborted => exact ⟨rfl, fun _ _ => rfl⟩

/-- Settles O26: a store's check keeps it out of the instruction region, and nothing else writes memory. -/
theorem codeNeverChanges : Obligations.CodeNeverChanges := by
  intro s t stepped
  obtain ⟨-, way⟩ := step_cases stepped
  cases way with
  | abort => exact ⟨rfl, fun _ _ => rfl⟩
  | outside => exact ⟨rfl, fun _ _ => rfl⟩
  | dispatched n i u _ _ _ _ _ executed => exact (exec_effect executed).code_kept
  | undecodable => exact ⟨rfl, fun _ _ => rfl⟩
  | resumed x u _ _ _ _ executed => exact (exec_effect executed).code_kept

theorem Effect.out_grows {i : Instr} {s u : State} (effect : Effect i s u) :
    ∃ vs, u.out = s.out ++ vs ∧ vs.length ≤ 1 := by
  have same {out : List Int} (h : out = s.out) : ∃ vs, out = s.out ++ vs ∧ vs.length ≤ 1 :=
    ⟨[], by rw [h, List.append_nil], Nat.zero_le _⟩
  cases effect with
  | register x v => exact same (s.setReg_out x v)
  | link x a => exact same (s.setReg_out x _)
  | answered x v rest => exact same (State.setReg_out _ x v)
  | output x => exact ⟨[s.reg x], rfl, le_refl 1⟩
  | memory | unchanged | jump | halt | failure | blocked | aborted => exact same rfl

/-- Settles O29: only a meaning writes output, and each has one effect. -/
theorem outputOnlyGrows : Obligations.OutputOnlyGrows := by
  intro s t stepped
  obtain ⟨-, way⟩ := step_cases stepped
  cases way with
  | dispatched n i u _ _ _ _ _ executed => exact (exec_effect executed).out_grows
  | resumed x u _ _ _ _ executed => exact (exec_effect executed).out_grows
  | abort | outside | undecodable => exact ⟨[], (List.append_nil _).symm, Nat.zero_le _⟩

/-- A meaning ends the run only by one of three effects. -/
theorem Effect.run_cases {i : Instr} {s u : State} (effect : Effect i s u) :
    u.run = s.run ∨ (i = .halt ∧ u = s.stop) ∨ (∃ c a, (∀ x, i ≠ .read x) ∧ u = s.fail c (some i) a)
      ∨ ∃ x rest, i = .read x ∧ u = s.quit rest := by
  cases effect with
  | register x v => exact .inl (s.setReg_run x v)
  | link x a => exact .inl (s.setReg_run x _)
  | answered x v rest => exact .inl (State.setReg_run _ x v)
  | halt isHalt => exact .inr (.inl ⟨isHalt, rfl⟩)
  | failure c a notRead => exact .inr (.inr (.inl ⟨c, a, notRead, rfl⟩))
  | aborted x rest isRead => exact .inr (.inr (.inr ⟨x, rest, isRead, rfl⟩))
  | memory | unchanged | jump | output | blocked => exact .inl rfl

theorem exec_halted {i : Instr} {s u : State} (h : exec i s = .next u) (live : s.run ≠ .halted) (halted : u.run = .halted) :
    i = .halt ∧ u = s.stop := by
  obtain kept | stopped | ⟨c, a, -, rfl⟩ | ⟨x, rest, -, rfl⟩ := (exec_effect h).run_cases
  · exact absurd (kept.symm.trans halted) live
  · exact stopped
  · exact RunState.noConfusion halted
  · exact RunState.noConfusion halted

theorem exec_failed {i : Instr} {s u : State} (h : exec i s = .next u) (live : s.run ≠ .failed) (failed : u.run = .failed) :
    ∃ c a, (∀ x, i ≠ .read x) ∧ u = s.fail c (some i) a := by
  obtain kept | ⟨-, rfl⟩ | failure | ⟨x, rest, -, rfl⟩ := (exec_effect h).run_cases
  · exact absurd (kept.symm.trans failed) live
  · exact RunState.noConfusion failed
  · exact failure
  · exact RunState.noConfusion failed

theorem exec_aborted {i : Instr} {s u : State} (h : exec i s = .next u) (live : s.run ≠ .aborted)
    (aborted : u.run = .aborted) : ∃ x rest, i = .read x ∧ takeAnswer s.input = some (.abort, rest) := by
  obtain kept | ⟨-, rfl⟩ | ⟨c, a, -, rfl⟩ | ⟨x, rest, rfl, -⟩ := (exec_effect h).run_cases
  · exact absurd (kept.symm.trans aborted) live
  · exact RunState.noConfusion aborted
  · exact RunState.noConfusion aborted
  · match taken : takeAnswer s.input with
    | none =>
      obtain rfl := Host.Outcome.next.inj ((exec_read_of_none x s taken).symm.trans h)
      exact absurd aborted live
    | some (.abort, left) => exact ⟨x, left, rfl, rfl⟩
    | some (.value v, left) =>
      obtain rfl := Host.Outcome.next.inj ((exec_read_of_value x s taken).symm.trans h)
      exact absurd ((State.setReg_run _ x v).symm.trans aborted) live

/-- Settles O27: a failure is taken before anything is written, and a resumed `read` cannot fail. -/
theorem failedStepIsPrecise : Obligations.FailedStepIsPrecise := by
  intro s t stepped failed
  obtain ⟨(live : s.Live), way⟩ := step_cases stepped
  cases way with
  | abort => exact RunState.noConfusion failed
  | outside target noAbort ready hpc =>
    refine ⟨fun _ => rfl, fun _ => rfl, rfl, rfl, rfl, rfl, fun n at_n => ⟨fun _ => ⟨rfl, rfl, rfl⟩, fun inCode => ?_⟩⟩
    obtain ⟨halted, -⟩ | ⟨m, at_m, outside, -⟩ := hpc
    · exact Pc.noConfusion (at_n.symm.trans halted)
    · cases at_n.symm.trans at_m
      exact absurd inCode outside.not_gt
  | dispatched n i u noAbort ready hpc inCode decoded executed =>
    obtain ⟨c, a, -, rfl⟩ := exec_failed executed (fun h => RunState.noConfusion h) failed
    refine ⟨fun r => ?_, fun _ => rfl, rfl, rfl, rfl, rfl, fun m at_m => ?_⟩
    · rw [State.reg_forceR0]; exact State.reg_forceR0 _ r
    · cases hpc.symm.trans at_m
      exact ⟨fun outside => absurd inCode outside.not_gt, fun _ => ⟨rfl, rfl, rfl⟩⟩
  | undecodable n noAbort ready hpc inCode undecoded =>
    obtain ⟨i, decoded⟩ := Encoding.decodeWord_total (s.wordAt n)
    exact absurd (decoded.symm.trans undecoded) (Option.some_ne_none i)
  | resumed x u noAbort waiting answered reads executed =>
    obtain ⟨c, a, notRead, -⟩ := exec_failed executed live.run_ne_failed failed
    exact absurd rfl (notRead x)

/-- Settles O30: no effect but that of `halt` halts, and no `read` resumed is a `halt`. -/
theorem haltedExactlyByHalt : Obligations.HaltedExactlyByHalt := by
  intro s t stepped
  obtain ⟨(live : s.Live), way⟩ := step_cases stepped
  have forward (halted : t.run = .halted) : t.pc = .halt ∧ s.waiting = false ∧ s.abortIn ≠ some 0
      ∧ ∃ n, s.pc = .addr n ∧ n < s.codeSize ∧ decodeWord (s.wordAt n) = some .halt := by
    cases way with
    | abort | outside | undecodable => exact RunState.noConfusion halted
    | dispatched n i u noAbort ready hpc inCode decoded executed =>
      obtain ⟨rfl, rfl⟩ := exec_halted executed (fun h => RunState.noConfusion h) halted
      exact ⟨rfl, ready, noAbort, n, hpc, inCode, decoded⟩
    | resumed x u noAbort waiting answered reads executed =>
      obtain ⟨isHalt, -⟩ := exec_halted executed live.run_ne_halted halted
      cases isHalt
  refine ⟨⟨fun halted => (forward halted).2, ?_⟩, fun halted => (forward halted).1⟩
  rintro ⟨ready, noAbort, n, hpc, inCode, decoded⟩
  have halts := (step_eq_dispatch live ready noAbort hpc inCode decoded).trans (dispatch_of_next (exec_halt _))
  obtain rfl := Host.Outcome.next.inj (stepped.symm.trans halts)
  rfl

/-- Settles O31: no effect but that of a `read` whose first valid answer is the abort aborts. -/
theorem abortedOnlyByTheHost : Obligations.AbortedOnlyByTheHost := by
  intro s t stepped aborted
  obtain ⟨(live : s.Live), way⟩ := step_cases stepped
  cases way with
  | abort due =>
    rw [State.AbortDue, takeAnswer_eq_none] at due
    exact due.elim .inl (.inr ∘ .inl)
  | outside | undecodable => exact RunState.noConfusion aborted
  | dispatched n i u noAbort ready hpc inCode decoded executed =>
    obtain ⟨x, rest, rfl, taken⟩ := exec_aborted executed (fun h => RunState.noConfusion h) aborted
    obtain ⟨bad, turnedAway, input⟩ := takeAnswer_eq_some taken
    exact .inr (.inr ⟨x, bad, rest, turnedAway, input, .inr ⟨ready, n, hpc, inCode, decoded⟩⟩)
  | resumed x u noAbort waiting answered reads executed =>
    obtain ⟨y, rest, -, taken⟩ := exec_aborted executed live.run_ne_aborted aborted
    obtain ⟨bad, turnedAway, input⟩ := takeAnswer_eq_some taken
    exact .inr (.inr ⟨x, bad, rest, turnedAway, input, .inl ⟨waiting, reads⟩⟩)

end Sys2Proof.Machine
end

section
/-! PROOFS. Register 0: every meaning reads it as 0 and leaves it as it is (10_state.md R22; 40_cycle.md R115). -/

namespace Sys2Proof.Machine

/-! ### Register 0 (R22, R115) -/

theorem State.forceR0_setReg (s : State) (x : Reg) (v : Int) : s.forceR0.setReg x v = (s.setReg x v).forceR0 := by
  by_cases hx : x = 0
  · subst hx; rfl
  · have apart : (0 : Nat) ≠ x.val := fun e => hx (Fin.ext e.symm)
    simp only [State.setReg, if_neg hx, State.forceR0]
    rw [Vector.set_comm _ _ apart]

section ForceR0

variable (i : Instr) (s : State)

theorem writeChecked_forceR0 (x : Reg) (r : Int) : writeChecked i x r s.forceR0 = afterDispatch (writeChecked i x r s) := by
  by_cases inRange : InRange r
  · rw [writeChecked_of_inRange inRange, writeChecked_of_inRange inRange, s.forceR0_setReg]; rfl
  · rw [writeChecked_of_not_inRange inRange, writeChecked_of_not_inRange inRange]; rfl

theorem writeQuotient_forceR0 (x : Reg) (q : Int) :
    writeQuotient divOvfPolicy i x q s.forceR0 = afterDispatch (writeQuotient divOvfPolicy i x q s) := by
  by_cases corner : q = 32768
  · subst corner; rfl
  · rw [writeQuotient_of_ne corner, writeQuotient_of_ne corner, s.forceR0_setReg]; rfl

theorem loadFrom_forceR0 (x : Reg) (a : Int) : loadFrom i x a s.forceR0 = afterDispatch (loadFrom i x a s) := by
  by_cases inData : s.InData a
  · rw [loadFrom_of_inData inData, loadFrom_of_inData (s := s.forceR0) inData, s.forceR0_setReg]; rfl
  · rw [loadFrom_of_not_inData inData, loadFrom_of_not_inData (s := s.forceR0) inData]; rfl

theorem storeTo_forceR0 (x : Reg) (a : Int) : storeTo i x a s.forceR0 = afterDispatch (storeTo i x a s) := by
  by_cases inData : s.InData a
  · rw [storeTo_of_inData inData, storeTo_of_inData (s := s.forceR0) inData, s.reg_forceR0]; rfl
  · rw [storeTo_of_not_inData inData, storeTo_of_not_inData (s := s.forceR0) inData]; rfl

theorem checkTarget_forceR0 (a : Int) (after : State) :
    checkTarget i a s.forceR0 after.forceR0 = afterDispatch (checkTarget i a s after) := by
  by_cases inCode : s.InCode a
  · rw [checkTarget_of_inCode inCode, checkTarget_of_inCode (s := s.forceR0) inCode]; rfl
  · rw [checkTarget_of_not_inCode inCode, checkTarget_of_not_inCode (s := s.forceR0) inCode]; rfl

theorem branchIf_forceR0 (c : Condition) (x : Reg) (n : Imm8) :
    branchIf i c x n s.forceR0 = afterDispatch (branchIf i c x n s) := by
  rw [branchIf, branchIf, ← checkTarget_forceR0, s.reg_forceR0, apply_ite State.forceR0]
  rfl

/-- No meaning can tell what is stored in x[0]: forcing it to 0 before or after is the same. -/
theorem exec_forceR0 : exec i s.forceR0 = afterDispatch (exec i s) := by
  cases i with
  | halt => rfl
  | read x =>
    match taken : takeAnswer s.input with
    | none => rw [exec_read_of_none x s taken, exec_read_of_none x s.forceR0 taken]; rfl
    | some (.abort, rest) => rw [exec_read_of_abort x s taken, exec_read_of_abort x s.forceR0 taken]; rfl
    | some (.value v, rest) =>
      rw [exec_read_of_value x s taken, exec_read_of_value x s.forceR0 taken]
      exact congrArg Host.Outcome.next ((s.unblock rest).forceR0_setReg x v)
  | write x => rw [exec_write, exec_write, s.reg_forceR0]; rfl
  | jumpi x => rw [exec_jumpi, exec_jumpi, s.reg_forceR0]; exact checkTarget_forceR0 _ s _ (s.setPc _)
  | loadn x n => rw [exec_loadn, exec_loadn, s.forceR0_setReg]; rfl
  | load x n => exact loadFrom_forceR0 ..
  | store x n => exact storeTo_forceR0 ..
  | loadi x y => rw [exec_loadi, State.indirectAddress, s.reg_forceR0]; exact loadFrom_forceR0 ..
  | storei x y => rw [exec_storei, State.indirectAddress, s.reg_forceR0]; exact storeTo_forceR0 ..
  | addn x n => rw [exec_addn, s.reg_forceR0]; exact writeChecked_forceR0 ..
  | nop => rfl
  | mov x y => rw [exec_mov, s.reg_forceR0]; exact writeChecked_forceR0 ..
  | add x y z => rw [exec_add, s.reg_forceR0, s.reg_forceR0]; exact writeChecked_forceR0 ..
  | neg x z => rw [exec_neg, s.reg_forceR0]; exact writeChecked_forceR0 ..
  | sub x y z => rw [exec_sub, s.reg_forceR0, s.reg_forceR0]; exact writeChecked_forceR0 ..
  | mul x y z => rw [exec_mul, s.reg_forceR0, s.reg_forceR0]; exact writeChecked_forceR0 ..
  | div x y z =>
    by_cases zero : s.reg z = 0
    · have zero' : s.forceR0.reg z = 0 := (s.reg_forceR0 z).trans zero
      rw [exec_of_zeroDivisor x y z s (.inl rfl) zero, exec_of_zeroDivisor x y z s.forceR0 (.inl rfl) zero']; rfl
    · have zero' : s.forceR0.reg z ≠ 0 := (s.reg_forceR0 z).symm ▸ zero
      rw [exec_div_of_ne x y z s zero, exec_div_of_ne x y z s.forceR0 zero', s.reg_forceR0, s.reg_forceR0]
      exact writeQuotient_forceR0 ..
  | mod x y z =>
    by_cases zero : s.reg z = 0
    · have zero' : s.forceR0.reg z = 0 := (s.reg_forceR0 z).trans zero
      rw [exec_of_zeroDivisor x y z s (.inr rfl) zero, exec_of_zeroDivisor x y z s.forceR0 (.inr rfl) zero']; rfl
    · have zero' : s.forceR0.reg z ≠ 0 := (s.reg_forceR0 z).symm ▸ zero
      rw [exec_mod_of_ne x y z s zero, exec_mod_of_ne x y z s.forceR0 zero', s.reg_forceR0, s.reg_forceR0,
        s.forceR0_setReg]
      rfl
  | jump n => exact checkTarget_forceR0 _ s _ (s.setPc _)
  | call x n => rw [exec_call, s.forceR0_setReg]; exact checkTarget_forceR0 _ s _ ((s.setReg x _).setPc _)
  | jeqz x n => exact branchIf_forceR0 ..
  | jnez x n => exact branchIf_forceR0 ..
  | jgtz x n => exact branchIf_forceR0 ..
  | jltz x n => exact branchIf_forceR0 ..
  | data w => rfl

end ForceR0

theorem Effect.r0_kept {i : Instr} {s u : State} (effect : Effect i s u) : u.regs[0] = s.regs[0] := by
  cases effect with
  | register x v => exact s.setReg_regs_zero x v
  | link x a => exact s.setReg_regs_zero x _
  | answered x v rest => exact (s.unblock rest).setReg_regs_zero x v
  | memory | unchanged | jump | output | halt | failure | blocked | aborted => rfl

/-- Settles O33: no effect writes x[0], and every meaning commutes with forcing it. -/
theorem registerZeroIsHardwired : Obligations.RegisterZeroIsHardwired := fun i s _ h =>
  ⟨(exec_effect h).r0_kept, (exec_forceR0 i s).trans (congrArg afterDispatch h)⟩

end Sys2Proof.Machine
end

section
/-! PROOFS. What an instruction names: the one register, word or value that it writes, and the record of its failure
(10_state.md R33; 40_cycle.md R120; 60_exceptions.md R168). -/

namespace Sys2Proof.Machine

/-! ### What an instruction names (R33, R120, R168) -/

/-- The causes that an instruction raises, and whether they have a target (60_exceptions.md R168). -/
def Raises (c : FailCause) (target : Option Int) : Prop :=
  c ≠ .pcOutOfBounds ∧ (target = none ↔ c = .divideByZero ∨ c = .invalidOpcode)

/-- What a meaning does, with the instruction that each write needs: it refines `Effect` by the operands that the
instruction's rule names. -/
inductive NamedEffect (i : Instr) (s : State) : State → Prop where
  | unchanged : NamedEffect i s s
  | register (x : Reg) (v : Int) (named : destination i = some x) : NamedEffect i s (s.setReg x v)
  | link (x : Reg) (v : Int) (a : Nat) (named : destination i = some x) : NamedEffect i s ((s.setReg x v).setPc a)
  | jump (a : Nat) : NamedEffect i s (s.setPc a)
  | memory (a : Nat) (v : Int) (named : (∃ x n, i = .store x n) ∨ ∃ x y, i = .storei x y) :
      NamedEffect i s (s.memWrite a v)
  | output (x : Reg) (v : Int) (named : i = .write x) : NamedEffect i s (s.emit v)
  | halt : NamedEffect i s s.stop
  | failure (c : FailCause) (target : Option Int) (raises : Raises c target) : NamedEffect i s (s.fail c (some i) target)
  | blocked (x : Reg) (named : i = .read x) : NamedEffect i s s.block
  | aborted (x : Reg) (rest : List HostAnswer) (named : i = .read x) : NamedEffect i s (s.quit rest)
  | answered (x : Reg) (v : Int) (rest : List HostAnswer) (named : i = .read x) :
      NamedEffect i s ((s.unblock rest).setReg x v)

section Named

variable {i : Instr} {s u : State}

theorem raises_some {c : FailCause} (a : Int) (h : c ≠ .pcOutOfBounds ∧ c ≠ .divideByZero ∧ c ≠ .invalidOpcode) :
    Raises c (some a) :=
  ⟨h.1, ⟨fun no => absurd no (Option.some_ne_none a), fun either => absurd either (not_or.mpr h.2)⟩⟩

theorem writeChecked_named {x : Reg} {r : Int} (named : destination i = some x) (h : writeChecked i x r s = .next u) :
    NamedEffect i s u := by
  obtain ⟨-, rfl⟩ | ⟨-, rfl⟩ := writeChecked_cases h
  · exact .register x r named
  · exact .failure _ _ (raises_some r (by decide))

theorem loadFrom_named {x : Reg} {a : Int} (named : destination i = some x) (h : loadFrom i x a s = .next u) :
    NamedEffect i s u := by
  by_cases inData : s.InData a
  · cases (loadFrom_of_inData inData).symm.trans h; exact .register x _ named
  · cases (loadFrom_of_not_inData inData).symm.trans h; exact .failure _ _ (raises_some a (by decide))

theorem storeTo_named {x : Reg} {a : Int} (named : (∃ x n, i = .store x n) ∨ ∃ x y, i = .storei x y)
    (h : storeTo i x a s = .next u) : NamedEffect i s u := by
  by_cases inData : s.InData a
  · cases (storeTo_of_inData inData).symm.trans h; exact .memory _ _ named
  · cases (storeTo_of_not_inData inData).symm.trans h; exact .failure _ _ (raises_some a (by decide))

theorem checkTarget_named {a : Int} {after : State} (h : checkTarget i a s after = .next u)
    (ok : NamedEffect i s after) : NamedEffect i s u := by
  by_cases inCode : s.InCode a
  · cases (checkTarget_of_inCode inCode).symm.trans h; exact ok
  · cases (checkTarget_of_not_inCode inCode).symm.trans h; exact .failure _ _ (raises_some a (by decide))

theorem branchIf_named {c : Condition} {x : Reg} {n : Imm8} (h : branchIf i c x n s = .next u) : NamedEffect i s u := by
  refine checkTarget_named h ?_
  split_ifs
  · exact .jump _
  · exact .unchanged

theorem zeroDivisor_named {x y z : Reg} (hi : i = .div x y z ∨ i = .mod x y z) (zero : s.reg z = 0)
    (h : exec i s = .next u) : NamedEffect i s u := by
  cases (exec_of_zeroDivisor x y z s hi zero).symm.trans h
  exact .failure _ _ ⟨by decide, by decide⟩

theorem exec_named (h : exec i s = .next u) : NamedEffect i s u := by
  cases i with
  | halt => cases h; exact .halt
  | read x =>
    match taken : takeAnswer s.input with
    | none => cases (exec_read_of_none x s taken).symm.trans h; exact .blocked x rfl
    | some (.abort, rest) => cases (exec_read_of_abort x s taken).symm.trans h; exact .aborted x rest rfl
    | some (.value v, rest) => cases (exec_read_of_value x s taken).symm.trans h; exact .answered x v rest rfl
  | write x => cases h; exact .output x _ rfl
  | jumpi x => exact checkTarget_named h (.jump _)
  | loadn x n => cases h; exact .register x _ rfl
  | load x n => exact loadFrom_named rfl h
  | store x n => exact storeTo_named (.inl ⟨x, n, rfl⟩) h
  | loadi x y => exact loadFrom_named rfl h
  | storei x y => exact storeTo_named (.inr ⟨x, y, rfl⟩) h
  | addn x n => exact writeChecked_named rfl h
  | nop => cases h; exact .unchanged
  | mov x y => exact writeChecked_named rfl h
  | add x y z => exact writeChecked_named rfl h
  | neg x z => exact writeChecked_named rfl h
  | sub x y z => exact writeChecked_named rfl h
  | mul x y z => exact writeChecked_named rfl h
  | div x y z =>
    by_cases zero : s.reg z = 0
    · exact zeroDivisor_named (.inl rfl) zero h
    · obtain ⟨-, rfl⟩ | ⟨-, rfl⟩ := writeQuotient_cases ((exec_div_of_ne x y z s zero).symm.trans h)
      · exact .register x _ rfl
      · exact .failure _ _ (raises_some _ (by decide))
  | mod x y z =>
    by_cases zero : s.reg z = 0
    · exact zeroDivisor_named (.inr rfl) zero h
    · cases (exec_mod_of_ne x y z s zero).symm.trans h; exact .register x _ rfl
  | jump n => exact checkTarget_named h (.jump _)
  | call x n => exact checkTarget_named h (.link x _ _ rfl)
  | jeqz x n => exact branchIf_named h
  | jnez x n => exact branchIf_named h
  | jgtz x n => exact branchIf_named h
  | jltz x n => exact branchIf_named h
  | data w => cases h; exact .failure _ _ ⟨by decide, by decide⟩

/-! Each field, as the named effects leave it. -/

theorem NamedEffect.regs_kept (effect : NamedEffect i s u) {y : Reg} (other : destination i ≠ some y) :
    u.regs[y.val] = s.regs[y.val] := by
  have setReg_kept {t : State} {x : Reg} (v : Int) (named : destination i = some x) :
      (t.setReg x v).regs[y.val] = t.regs[y.val] := by
    obtain ⟨-, others, -, -⟩ := t.setReg_writesReg x v
    exact others y (.inl fun e => other (e ▸ named))
  cases effect with
  | register x v named => exact setReg_kept v named
  | link x v a named => exact setReg_kept v named
  | answered x v rest named => exact setReg_kept (t := s.unblock rest) v (congrArg destination named)
  | unchanged | jump | memory | output | halt | failure | blocked | aborted => rfl

theorem NamedEffect.mem_kept (effect : NamedEffect i s u) (notStore : ∀ x n, i ≠ .store x n)
    (notStorei : ∀ x y, i ≠ .storei x y) : u.mem = s.mem := by
  cases effect with
  | register x v => exact s.setReg_mem x v
  | link x v => exact s.setReg_mem x v
  | answered x v rest => exact State.setReg_mem _ x v
  | memory a v named =>
    obtain ⟨x, n, isStore⟩ | ⟨x, y, isStorei⟩ := named
    · exact absurd isStore (notStore x n)
    · exact absurd isStorei (notStorei x y)
  | unchanged | jump | output | halt | failure | blocked | aborted => rfl

theorem NamedEffect.out_kept (effect : NamedEffect i s u) (notWrite : ∀ x, i ≠ .write x) : u.out = s.out := by
  cases effect with
  | register x v => exact s.setReg_out x v
  | link x v => exact s.setReg_out x v
  | answered x v rest => exact State.setReg_out _ x v
  | output x v named => exact absurd named (notWrite x)
  | unchanged | jump | memory | halt | failure | blocked | aborted => rfl

theorem NamedEffect.input_kept (effect : NamedEffect i s u) (notRead : ∀ x, i ≠ .read x) : u.input = s.input := by
  cases effect with
  | register x v => exact s.setReg_input x v
  | link x v => exact s.setReg_input x v
  | blocked x named => exact absurd named (notRead x)
  | aborted x rest named => exact absurd named (notRead x)
  | answered x v rest named => exact absurd named (notRead x)
  | unchanged | jump | memory | output | halt | failure => rfl

/-- What no meaning writes: step 2 and the load are over, and the host counts down by itself. -/
theorem NamedEffect.context_kept (effect : NamedEffect i s u) :
    u.ir = s.ir ∧ u.lpc = s.lpc ∧ u.codeSize = s.codeSize ∧ u.abortIn = s.abortIn := by
  cases effect with
  | register x v => simp
  | link x v => simp
  | answered x v rest => simp
  | unchanged | jump | memory | output | halt | failure | blocked | aborted => exact ⟨rfl, rfl, rfl, rfl⟩

theorem NamedEffect.fault_kept (effect : NamedEffect i s u) (notFailed : u.run ≠ .failed) : u.fault = s.fault := by
  cases effect with
  | register x v => exact s.setReg_fault x v
  | link x v => exact s.setReg_fault x v
  | answered x v rest => exact State.setReg_fault _ x v
  | failure => exact absurd rfl notFailed
  | unchanged | jump | memory | output | halt | blocked | aborted => rfl

end Named

/-- Settles O28: the one effect that fails, with the instruction whose record it makes. -/
theorem failureRecordHoldsTheContext : Obligations.FailureRecordHoldsTheContext := by
  intro i s t live executed failed
  cases exec_named executed with
  | failure c target raises => exact ⟨c, target, rfl, raises⟩
  | register x v => exact absurd ((s.setReg_run x v).symm.trans failed) live
  | link x v => exact absurd ((s.setReg_run x v).symm.trans failed) live
  | answered x v rest => exact absurd ((State.setReg_run _ x v).symm.trans failed) live
  | halt | aborted => exact RunState.noConfusion failed
  | unchanged | jump | memory | output | blocked => exact absurd failed live

/-! ### A cycle that goes on running (R120) -/

theorem storeTo_running {i : Instr} {x : Reg} {a : Int} {s u : State} (h : storeTo i x a s = .next u)
    (running : u.run = .running) : s.InData a ∧ u = s.memWrite a.toNat (s.reg x) := by
  by_cases inData : s.InData a
  · cases (storeTo_of_inData inData).symm.trans h; exact ⟨inData, rfl⟩
  · cases (storeTo_of_not_inData inData).symm.trans h; exact RunState.noConfusion running

theorem exec_read_running {x : Reg} {s u : State} (h : exec (.read x) s = .next u) (running : u.run = .running)
    (ready : u.waiting = false) : ∃ bad v, AllTurnedAway bad ∧ InRange v ∧ s.input = bad ++ .value v :: u.input := by
  match taken : takeAnswer s.input with
  | none => cases (exec_read_of_none x s taken).symm.trans h; exact Bool.noConfusion ready
  | some (.abort, rest) => cases (exec_read_of_abort x s taken).symm.trans h; exact RunState.noConfusion running
  | some (.value v, rest) =>
    cases (exec_read_of_value x s taken).symm.trans h
    obtain ⟨bad, turnedAway, input⟩ := takeAnswer_eq_some taken
    exact ⟨bad, v, turnedAway, takeAnswer_inRange taken, by rw [State.setReg_input]; exact input⟩

/-- Settles O34: the frames are those of the named effect, and `store`, `storei`, `write` and `read` write what their
meanings say. -/
theorem cycleWritesAtMostOneResult : Obligations.CycleWritesAtMostOneResult := by
  intro s t n i ready noAbort hpc inCode decoded stepped running notBlocked
  obtain ⟨live, -⟩ := step_cases stepped
  rw [step_eq_dispatch live ready noAbort hpc inCode decoded] at stepped
  obtain ⟨u, executed, rfl⟩ := afterDispatch_next stepped
  have effect := exec_named executed
  have goesOn : u.run = .running := running
  obtain ⟨ir, lpc, codeSize, abortIn⟩ := effect.context_kept
  have reads (x : Reg) : (s.countDown.begin.fetched n).forceR0.reg x = s.reg x := State.reg_forceR0 _ x
  have stores {x : Reg} {a : Int} (h : storeTo i x a (s.countDown.begin.fetched n).forceR0 = .next u) :
      (s.codeSize : Int) ≤ a ∧ a < 256 ∧ u.wordAt a.toNat = int16 (s.reg x)
        ∧ ∀ b, b ≠ a.toNat → u.wordAt b = s.wordAt b := by
    obtain ⟨inData, rfl⟩ := storeTo_running h goesOn
    obtain ⟨written, others, -⟩ := State.memWrite_writesWord (s.countDown.begin.fetched n).forceR0 a.toNat
      ((s.countDown.begin.fetched n).forceR0.reg x)
    exact ⟨inData.1, inData.2, written.trans (congrArg int16 (reads x)), others⟩
  refine ⟨ir, lpc, codeSize, effect.fault_kept (goesOn ▸ fun h => RunState.noConfusion h), ?r0, abortIn, ?registers, ?store,
    ?storei, effect.mem_kept, ?write, effect.out_kept, ?read, effect.input_kept⟩
  case r0 => exact Vector.getElem_set_self _
  case registers =>
    intro y notZero other
    have apart : (0 : Nat) ≠ y.val := fun e => notZero (Fin.ext e.symm)
    have before := Vector.getElem_set_ne (xs := s.regs) (x := 0) (by decide) y.isLt apart
    have after := Vector.getElem_set_ne (xs := u.regs) (x := 0) (by decide) y.isLt apart
    exact after.trans ((effect.regs_kept other).trans before)
  case store => rintro x m rfl; exact stores executed
  case storei =>
    rintro x y rfl
    have address : (s.countDown.begin.fetched n).forceR0.indirectAddress y = s.indirectAddress y := reads y
    rw [exec_storei, address] at executed
    exact stores executed
  case write =>
    rintro x rfl
    cases executed
    exact congrArg (fun v => s.out ++ [v]) (reads x)
  case read =>
    rintro x rfl
    exact (exec_read_running executed goesOn notBlocked :)

end Sys2Proof.Machine
end

section
/-! PROOFS. The program image: the bits of a word line in their order, the words before the first blank line, and which
images the load accepts (70_reset_and_hazards.md R187 to R190; 00_scope.md R13). -/

namespace Sys2Proof.Encoding

/-! ### The word that a text spells (R13) -/

theorem binaryString_getElem? {w n k : Nat} (h : k < w) : (binaryString w n)[k]? = some (n.testBit (w - 1 - k)) := by
  induction w generalizing k with
  | zero => cases h
  | succ w ih =>
    cases k with
    | zero => rfl
    | succ k =>
      have shifted : w + 1 - 1 - (k + 1) = w - 1 - k := by omega
      rw [shifted]
      exact ih (Nat.lt_of_succ_lt_succ h)

/-- The first bit of a 16-bit string is `W[15]`. -/
theorem getLsbD_ofNat_bitStringToInt {b : BitString} (length : b.length = 16) {k : Nat} (h : k < 16) :
    b[k]? = some ((BitVec.ofNat 16 (bitStringToInt b)).getLsbD (15 - k)) := by
  have low : 15 - k < 16 := by omega
  conv_lhs => rw [eq_binaryString length rfl]
  rw [binaryString_getElem? h, BitVec.getLsbD_ofNat, decide_eq_true low, Bool.true_and]

theorem bitsOfText_of_binary {cs : List Char} (spelled : ∀ c ∈ cs, c = '0' ∨ c = '1') :
    bitsOfText cs = some (cs.map (· == '1')) := by
  induction cs with
  | nil => rfl
  | cons c rest ih =>
    obtain ⟨first, others⟩ := List.forall_mem_cons.mp spelled
    have bit : bitOfChar c = some (c == '1') := by obtain rfl | rfl := first <;> rfl
    simp only [bitsOfText, bit, ih others, List.map_cons]

theorem wordOfText_of_binary {cs : List Char} (length : cs.length = 16) (spelled : ∀ c ∈ cs, c = '0' ∨ c = '1') :
    wordOfText cs = some (BitVec.ofNat 16 (bitStringToInt (cs.map (· == '1')))) := by
  simp only [wordOfText, bitsOfText_of_binary spelled, List.length_map, length, if_true]

theorem word_eq_iff_getLsbD (v w : Word) : v = w ↔ ∀ k, k < 16 → v.getLsbD (15 - k) = w.getLsbD (15 - k) := by
  refine ⟨fun h k _ => by rw [h], fun h => BitVec.eq_of_getLsbD_eq fun i hi => ?_⟩
  have bit := h (15 - i) (by omega)
  rwa [Nat.sub_sub_self (Nat.le_of_lt_succ hi)] at bit

theorem wordOfText_eq_some_iff (cs : List Char) (w : Word) :
    wordOfText cs = some w ↔ (cs.length = 16 ∧ ∀ c ∈ cs, c = '0' ∨ c = '1')
      ∧ ∀ k, k < 16 → (w.getLsbD (15 - k) = true ↔ cs[k]? = some '1') := by
  by_cases spelled : cs.length = 16 ∧ ∀ c ∈ cs, c = '0' ∨ c = '1'
  · obtain ⟨length, binary⟩ := spelled
    have bit {k : Nat} (hk : k < 16) :
        (BitVec.ofNat 16 (bitStringToInt (cs.map (· == '1')))).getLsbD (15 - k) = true ↔ cs[k]? = some '1' := by
      have read := getLsbD_ofNat_bitStringToInt (b := cs.map (· == '1')) (by rw [List.length_map, length]) hk
      have here : k < cs.length := length.symm ▸ hk
      rw [List.getElem?_map, List.getElem?_eq_getElem here, Option.map_some] at read
      rw [← Option.some.inj read, List.getElem?_eq_getElem here, beq_iff_eq, Option.some_inj]
    rw [wordOfText_of_binary length binary, Option.some_inj, word_eq_iff_getLsbD, and_iff_right ⟨length, binary⟩]
    refine forall₂_congr fun k hk => ?_
    rw [← bit hk, Bool.eq_iff_iff]
    exact Iff.comm
  · rw [(wordOfText_eq_none_iff cs).mpr spelled]
    exact ⟨fun h => absurd h.symm (Option.some_ne_none w), fun h => absurd h.1 spelled⟩

end Sys2Proof.Encoding

namespace Sys2Proof.Machine

/-! ### Word lines and images (R187 to R190) -/

theorem hasOnlyImageCharacters_iff (line : Line) :
    hasOnlyImageCharacters line = true ↔ ∀ c ∈ line, c = '0' ∨ c = '1' ∨ c = ' ' := by
  simp [hasOnlyImageCharacters, or_assoc]

/-- Once its spaces are removed, a line of image characters holds only bits. -/
theorem binary_of_filter {line : Line} (h : ∀ c ∈ line, c = '0' ∨ c = '1' ∨ c = ' ') :
    ∀ c ∈ line.filter (· != ' '), c = '0' ∨ c = '1' := by
  intro c hc
  obtain ⟨member, notSpace⟩ := List.mem_filter.mp hc
  have notSpace : c ≠ ' ' := bne_iff_ne.mp notSpace
  exact (or_assoc.mpr (h c member)).resolve_right notSpace

theorem parseLine_eq_ok_iff (line : Line) (w : Word) :
    parseLine line = .ok w ↔ hasOnlyImageCharacters line = true ∧ wordOfText (line.filter (· != ' ')) = some w := by
  unfold parseLine
  split_ifs with characters
  · cases h : wordOfText (line.filter (· != ' ')) <;> simp [characters]
  · simp [characters]

theorem parseLines_cons_eq_ok_iff {line : Line} (word : isBlank line = false) (rest : List Line) (words : List Word) :
    parseLines (line :: rest) = .ok words ↔
      ∃ w ws, words = w :: ws ∧ parseLine line = .ok w ∧ parseLines rest = .ok ws := by
  cases first : parseLine line with
  | error e => simp [parseLines, word, first]
  | ok w =>
    cases others : parseLines rest with
    | error e => simp [parseLines, word, first, others]
    | ok ws => simp [parseLines, word, first, others, eq_comm]

/-- The lines before the first blank one, each with its word. -/
theorem parseLines_eq_ok_iff (lines : List Line) (words : List Word) :
    parseLines lines = .ok words ↔ (lines.takeWhile (fun l => !isBlank l)).map parseLine = words.map .ok := by
  induction lines generalizing words with
  | nil => simp [parseLines, eq_comm]
  | cons line rest ih =>
    cases blank : isBlank line with
    | true => simp [parseLines, blank, eq_comm]
    | false =>
      rw [parseLines_cons_eq_ok_iff blank]
      cases words with
      | nil => simp [blank]
      | cons v vs => simp [blank, ih]

theorem parseImage_eq_ok_iff (lines : List Line) (words : List Word) :
    parseImage lines = .ok words ↔ parseLines lines = .ok words ∧ 1 ≤ words.length ∧ words.length ≤ 256 := by
  cases parsed : parseLines lines with
  | error e => simp [parseImage, parsed]
  | ok ws =>
    by_cases empty : ws.length = 0
    · simp only [parseImage, parsed, if_pos empty, reduceCtorEq, Except.ok.injEq, false_iff]
      rintro ⟨rfl, lower, -⟩
      omega
    by_cases long : 256 < ws.length
    · simp only [parseImage, parsed, if_neg empty, if_pos long, reduceCtorEq, Except.ok.injEq, false_iff]
      rintro ⟨rfl, -, upper⟩
      omega
    · simp only [parseImage, parsed, if_neg empty, if_neg long, Except.ok.injEq, iff_self_and]
      rintro rfl
      omega

/-- Settles O18, from what each of the loader's functions accepts. -/
theorem imagesAcceptedAreExactlyTheWellFormed : Obligations.ImagesAcceptedAreExactlyTheWellFormed := by
  refine ⟨fun lines ws => ?image, fun line w => ?line, rfl, loadProgram_eq_ok_iff⟩
  case image => rw [parseImage_eq_ok_iff, parseLines_eq_ok_iff, and_rotate]
  case line =>
    rw [parseLine_eq_ok_iff, hasOnlyImageCharacters_iff, Encoding.wordOfText_eq_some_iff]
    refine and_congr_right fun characters => ?_
    rw [and_iff_left (binary_of_filter characters)]

end Sys2Proof.Machine
end
